-- ==== Sys2Proof/Word.lean ====
section
/-! DEFINITION. The word types of the acquisition core (spec/00_scope.md R7, R12; spec/30_encoding.md R94).
Everything is unsigned (R14). -/

namespace Sys2Proof

/-- A byte: a sample, a byte of the link, a frame field, the trigger level, the divider index (R7, R12). -/
abbrev Byte := BitVec 8

/-- The width of `CURSOR`: 9 bits, the least that holds 0 to 400 (R12). -/
abbrev CursorWord := BitVec 9

/-- The width of `CHAN`: 3 bits (R12). -/
abbrev ChannelWord := BitVec 3

/-- The operation code of a local request, `lop[3:0]` (R94). -/
abbrev Lop := BitVec 4

end Sys2Proof
end

