-- ==== Sys2Proof/Syntax.lean ====
section
/-! DEFINITION. What the block can be made to do: the rows of the opcode table (`Instr`), the calls it makes on the
converter, the actions of the foreground sequencer, and the moves of the agents (spec/00_scope.md R5, R15). -/

namespace Sys2Proof

/-- One constructor per row of `spec/opcode_table.json`, except that the two-byte command `P`, which the block executes
in two separate steps, has one constructor for each of its bytes (`p`, R152, and `param`, R153): log entry 5.
The frame rows carry the frame's fields as the table names them. -/
inductive Instr where
  /-- `P`, the byte `0x50` in opcode position (R152). -/
  | p
  /-- `P`, the byte in parameter position: the divider index, raw and unsigned (R83, R153). -/
  | param (idx : Byte)
  /-- `S`, the byte `0x53`: toggle sampling (R154). -/
  | s
  /-- `R`, the byte `0x52`: query settings (R155). -/
  | r
  /-- `IGNORE`, any other byte `b` in opcode position (R84, R156). -/
  | ignore (b : Byte)
  /-- Local operation `START` (R120). -/
  | start
  /-- Local operation `STOP` (R121). -/
  | stop
  /-- Local operation `ARMTRIG level` (R123). -/
  | armTrig (level : Byte)
  /-- Local operation `SETCHAN ch`, `ch` a whole byte so that 6 to 255 can be presented (R140, R94). -/
  | setChan (ch : Byte)
  /-- Local operation `SETREF useInternal`, one bit (R142). -/
  | setRef (useInternal : Bool)
  /-- The conversion-complete event `ADC_DONE s` (R96, R110). -/
  | adcDone (sample : Byte)
  /-- The foreground action `EMIT`, selected by no input (R158). -/
  | emit
  /-- The foreground action `TRIGPOLL`, selected by no input (R125). -/
  | trigPoll
  /-- The data frame with the sample bytes `d` (R87). -/
  | txData (d : List Byte)
  /-- The settings frame with index `i`, integer byte `r`, hundredths byte `c` (R88). -/
  | txSettings (i r c : Byte)
  /-- The status frame with flags `e` (enabled) and `p` (paused) (R89). -/
  | txStatus (e p : Bool)
deriving DecidableEq, Repr

/-- The `cause` operand of a Configure call (R95). -/
inductive Cause where
  | divider
  | channel
  | reference
deriving DecidableEq, Repr, Inhabited

/-- The calls the block makes on the converter, the entries of `PLOG` (R95). -/
inductive PeriphCall where
  | armAutoTrigger
  | disableAutoRetrigger
  | configure (ch : ChannelWord) (idx : Byte) (ref : Bool) (cause : Cause)
deriving DecidableEq, Repr

/-- One output of the block, in issue order: a byte written to the transport (`TXLOG`) or a call on the converter
(`PLOG`). One list holds both, so the order of a call and a byte inside one action is kept (R65). -/
inductive Output where
  | tx (b : Byte)
  | call (c : PeriphCall)
deriving DecidableEq, Repr

/-- The foreground sequencer's state, the block's program counter (R33). -/
inductive Fg where
  | idle
  | waitParam
  | trigWait
deriving DecidableEq, Repr

/-- The five foreground actions of R150: the command step, the parameter step, the local step, the emission step and
the trigger poll. -/
inductive FgAction where
  | cmd
  | param
  | loc
  | emit
  | poll
deriving DecidableEq, Repr, Inhabited

/-- The scheduling parameter `FG_ORDER` (R11). -/
inductive FgOrder where
  | any
  | cmdFirst
  | emitFirst
deriving DecidableEq, Repr, Inhabited

/-- The four silent error classes (R180). They exist in the spec's prose only; no hardware value carries them. -/
inductive ErrorClass where
  /-- E1, invalid configuration value (R181). -/
  | invalidConfiguration
  /-- E2, unrecognised command (R182). -/
  | unrecognisedCommand
  /-- E3, buffer overflow attempt (R183). -/
  | bufferOverflow
  /-- E4, unbounded wait (R184): a property of a whole execution, raised by no step. -/
  | unboundedWait
deriving DecidableEq, Repr

/-- One step by one agent (R15): what moves next. The environment's moves carry what it supplies. -/
inductive Move where
  /-- The converter completes a conversion with this sample; the completion handler runs (R110, R111). -/
  | convert (sample : Byte)
  /-- The transport delivers a byte to the receive queue (R35, R230). -/
  | deliver (b : Byte)
  /-- The converter's latch changes to this value (R35). -/
  | setLatch (v : Byte)
  /-- A request is posted on the local port (R94, R230). -/
  | post (lop : Lop) (arg : Byte)
  /-- The foreground takes one action; where `FG_ORDER` leaves a choice it takes `prefer` (R150). -/
  | foreground (prefer : FgAction)
  /-- Reset (R210, R211). Whether bytes in the receive queue and requests still pending on the local port survive it is
  the environment's choice (R212). -/
  | reset (keepRx keepLocal : Bool)
deriving DecidableEq, Repr, Inhabited

end Sys2Proof
end

