-- ==== Sys2Proof/Config.lean ====
section
/-! DEFINITION. What an implementation fixes (spec/00_scope.md R6 to R11, spec/10_state.md R34) and the free values. -/

namespace Sys2Proof

/-- Buffer capacity `N` (R6). -/
def capacity : Nat := 400

/-- One entry of `RATE_TABLE`: an opaque divider value, and the rate as the exact rational `num / den` (R9, R34). -/
structure RateEntry where
  divider : Nat
  num : Nat
  den : Nat
deriving DecidableEq, Repr

/-- R9's constraint on one entry: a rational number whose integer part travels in one byte. -/
def RateEntry.valid (e : RateEntry) : Bool := decide (0 < e.den) && decide (e.num / e.den ≤ 255)

/-- R9's and R10's constraints: 4 to 256 valid entries, a reset index inside the table, a reset channel in 0 to 5. -/
def paramsAccepted (table : List RateEntry) (dividxReset : Byte) (chanReset : ChannelWord) : Bool :=
  decide (4 ≤ table.length) && decide (table.length ≤ 256) && table.all RateEntry.valid
    && decide (dividxReset.toNat < table.length) && decide (chanReset ≤ 5#3)

/-- The parameters the spec leaves open (R9, R10, R11), with the proof that they meet its constraints: a table the spec
refuses (spec/93_implementation_defined.md U7) cannot be put here. The field values written here only show that the
type has a member; `Config.device` is not provably equal to them. -/
structure Params where
  /-- `RATE_TABLE`, whose length is `T` (R9). -/
  table : List RateEntry := List.replicate 4 ⟨0, 1, 1⟩
  /-- `DIVIDX_RESET` (R10). -/
  dividxReset : Byte := 3#8
  /-- `CHAN_RESET` (R10). -/
  chanReset : ChannelWord := 0#3
  /-- `INTREF_RESET` (R10). -/
  intrefReset : Bool := false
  /-- What `TRIGLVL` holds after reset: the spec calls it unspecified (R36), so it is a parameter here (log entry 3). -/
  trigLvlReset : Byte := 0#8
  /-- `FG_ORDER` (R11). -/
  fgOrder : FgOrder := .any
  accepted : paramsAccepted table dividxReset chanReset = true := by decide
deriving DecidableEq, Repr, Inhabited

/-- `T`, the number of entries of the rate table (R9). -/
def Params.entries (p : Params) : Nat := p.table.length

/-- Parameters from raw values, refused where R9 or R10 rules them out (U7). -/
def Params.build? (table : List RateEntry) (dividxReset : Byte) (chanReset : ChannelWord) (intrefReset : Bool)
    (trigLvlReset : Byte) (fgOrder : FgOrder) : Option Params :=
  if h : paramsAccepted table dividxReset chanReset = true then
    some ⟨table, dividxReset, chanReset, intrefReset, trigLvlReset, fgOrder, h⟩
  else none

/-- The parameters of the device at hand: uninterpreted (log entry 1). -/
opaque Config.device : Params

/-- What the latch reads before the converter has put a value in it: a draw at each read (R35, U5; log entry 4). -/
opaque Config.freeLatch : Nat → Byte

/-- Which agent moves, and how, when the schedule names no move: uninterpreted (R15, R230; log entry 2). -/
opaque Config.freeMove : Nat → Move

/-- The two rate bytes of an index outside the table, which the spec does not define and no reachable state reads
(R29, R37; log entry 6). -/
opaque Config.rateBeyondTable : Byte → Byte × Byte

end Sys2Proof
end

