-- ==== Sys2Proof/WellFormed.lean ====
section
/-! DEFINITION. Which terms of `Instr` stand for something the encoding can say (spec/30_encoding.md). -/

namespace Sys2Proof

/-- The byte values that are opcodes (R81). -/
def isOpcode (b : Byte) : Bool := b == 0x50#8 || b == 0x52#8 || b == 0x53#8

/-- The checks the encoding puts on operands.
`IGNORE` is every byte other than the three opcodes (R84).
A data frame carries exactly 400 sample bytes (R87).
The hundredths byte of a settings frame is 0 to 99 (R34, R88).
A status frame's pair is one of (1,0), (1,1), (0,0) (R89).
Every other operand may take every value of its width. -/
def WellFormed : Instr → Bool
  | .p => true
  | .param _ => true
  | .s => true
  | .r => true
  | .ignore b => !isOpcode b
  | .start => true
  | .stop => true
  | .armTrig _ => true
  | .setChan _ => true
  | .setRef _ => true
  | .adcDone _ => true
  | .emit => true
  | .trigPoll => true
  | .txData d => d.length == capacity
  | .txSettings _ _ c => decide (c.toNat ≤ 99)
  | .txStatus e p => e || !p

end Sys2Proof
end

