-- ==== Sys2Proof/Decode.lean ====
section
/-! DEFINITION. Decoding of what reaches the block and of what it sends (spec/30_encoding.md), and the encoder beside it.
Where a value arrives decides how it is read: the receive stream in opcode or in parameter position (R98), the local
port (R94), the converter's event (R96), the foreground's own actions, the transmit stream (R87 to R89). -/

namespace Sys2Proof

/-- The actions no input selects (R98). -/
inductive InternalAction where
  | emit
  | trigPoll
deriving DecidableEq, Repr

/-- An encoded instruction, with the place it stands in. -/
inductive Code where
  /-- A byte of the receive stream in opcode position (R98). -/
  | opcode (b : Byte)
  /-- A byte of the receive stream in parameter position (R98). -/
  | parameter (b : Byte)
  /-- A request on the local port (R94). -/
  | request (lop : Lop) (arg : Byte)
  /-- The conversion-complete event with its operand (R96). -/
  | event (sample : Byte)
  /-- A foreground action, which has no encoding (R125, R158). -/
  | action (a : InternalAction)
  /-- The bytes of one frame, first byte first (R87 to R89). -/
  | frame (bytes : List Byte)
deriving DecidableEq, Repr

/-- Why a code stands for no instruction. -/
inductive Reject where
  /-- A local request whose `lop` is not assigned; the local step discards it (R94, R157). -/
  | unassignedLop (lop : Lop)
  /-- Bytes that are none of the three frames (R87 to R89). -/
  | notAFrame
deriving DecidableEq, Repr

/-- `zext_8` of a one-bit flag (R17, R89). -/
def zext8 (flag : Bool) : Byte := if flag then 0x01#8 else 0x00#8

/-! ## The receive stream -/

/-- The decode of a byte read in opcode position (R98). The whole byte is compared (R81). -/
def decodeOpcode (b : Byte) : Instr :=
  if b = 0x50#8 then .p
  else if b = 0x53#8 then .s
  else if b = 0x52#8 then .r
  else .ignore b

/-- The decode of a byte read in parameter position: always the index operand of `P` (R83, R98). -/
def decodeParameter (b : Byte) : Instr := .param b

/-- The length of a command in bytes, known from its first byte alone (R82). -/
def commandLength (b : Byte) : Nat := if b = 0x50#8 then 2 else 1

/-- The instructions a receive stream stands for, the position of each byte following from the ones before it (R57,
R86): a stream that begins in parameter position when `inParam` holds. -/
def decodeStream (inParam : Bool) : List Byte → List Instr
  | [] => []
  | b :: rest =>
    if inParam then decodeParameter b :: decodeStream false rest
    else decodeOpcode b :: decodeStream (decide (commandLength b = 2)) rest

/-! ## The local port -/

/-- The decode of a local request (R94). `START` and `STOP` ignore `arg`; `SETREF` reads `arg[0]` alone. -/
def decodeRequest (lop : Lop) (arg : Byte) : Except Reject Instr :=
  if lop = 0x0#4 then .ok .start
  else if lop = 0x1#4 then .ok .stop
  else if lop = 0x3#4 then .ok (.armTrig arg)
  else if lop = 0x4#4 then .ok (.setChan arg)
  else if lop = 0x6#4 then .ok (.setRef (arg.getLsbD 0))
  else .error (.unassignedLop lop)

/-! ## Frames -/

/-- The bytes of a data frame: start marker, samples, end marker (R87). -/
def dataBytes (d : List Byte) : List Byte := [0xFF#8, 0xAA#8] ++ d ++ [0x55#8, 0xEE#8]

/-- The bytes of a settings frame (R88). -/
def settingsBytes (i r c : Byte) : List Byte := [0x53#8, i, r, c]

/-- The bytes of a status frame (R89). -/
def statusBytes (e p : Bool) : List Byte := [0x58#8, zext8 e, zext8 p]

/-- A frame byte that carries one flag: `0x00` or `0x01`, never another value (R89). -/
def decodeFlag (b : Byte) : Option Bool :=
  if b = 0x00#8 then some false else if b = 0x01#8 then some true else none

/-- The decode of one whole frame: its first byte tells its kind and its kind its length (R91). -/
def decodeFrame (bytes : List Byte) : Except Reject Instr :=
  match bytes with
  | [a, e, p] =>
    match decodeFlag e, decodeFlag p with
    | some e, some p =>
      if a = 0x58#8 ∧ WellFormed (.txStatus e p) then .ok (.txStatus e p) else .error .notAFrame
    | _, _ => .error .notAFrame
  | [a, i, r, c] =>
    if a = 0x53#8 ∧ WellFormed (.txSettings i r c) then .ok (.txSettings i r c) else .error .notAFrame
  | a :: b :: rest =>
    let d := rest.take capacity
    if a = 0xFF#8 ∧ b = 0xAA#8 ∧ WellFormed (.txData d) ∧ rest.drop capacity = [0x55#8, 0xEE#8] then .ok (.txData d)
    else .error .notAFrame
  | _ => .error .notAFrame

/-! ## The decoder and the encoder -/

/-- What a code stands for. -/
def decode : Code → Except Reject Instr
  | .opcode b => .ok (decodeOpcode b)
  | .parameter b => .ok (decodeParameter b)
  | .request lop arg => decodeRequest lop arg
  | .event sample => .ok (.adcDone sample)
  | .action .emit => .ok .emit
  | .action .trigPoll => .ok .trigPoll
  | .frame bytes => decodeFrame bytes

/-- The code of an instruction. An operand bit the encoding ignores is written 0. -/
def encode : Instr → Code
  | .p => .opcode 0x50#8
  | .param idx => .parameter idx
  | .s => .opcode 0x53#8
  | .r => .opcode 0x52#8
  | .ignore b => .opcode b
  | .start => .request 0x0#4 0#8
  | .stop => .request 0x1#4 0#8
  | .armTrig level => .request 0x3#4 level
  | .setChan ch => .request 0x4#4 ch
  | .setRef useInternal => .request 0x6#4 (zext8 useInternal)
  | .adcDone sample => .event sample
  | .emit => .action .emit
  | .trigPoll => .action .trigPoll
  | .txData d => .frame (dataBytes d)
  | .txSettings i r c => .frame (settingsBytes i r c)
  | .txStatus e p => .frame (statusBytes e p)

/-! ## Host commands as the host writes them -/

/-- A whole command of the host, one or two bytes (R80, R81). -/
inductive Command where
  /-- `P idx`: set rate divider. -/
  | setDivider (idx : Byte)
  /-- `S`: toggle sampling. -/
  | toggle
  /-- `R`: query settings. -/
  | query
  /-- Any other byte. -/
  | other (b : Byte)
deriving DecidableEq, Repr

/-- An `other` byte is no opcode (R84). -/
def Command.wellFormed : Command → Bool
  | .other b => !isOpcode b
  | .setDivider _ => true
  | .toggle => true
  | .query => true

/-- The bytes of a command: format `C1` for `P`, `C0` for the rest (R80, R81). -/
def Command.bytes : Command → List Byte
  | .setDivider idx => [0x50#8, idx]
  | .toggle => [0x53#8]
  | .query => [0x52#8]
  | .other b => [b]

/-- The instructions the block executes for a command, one per byte (R164). -/
def Command.instrs : Command → List Instr
  | .setDivider idx => [.p, .param idx]
  | .toggle => [.s]
  | .query => [.r]
  | .other b => [.ignore b]

/-! ## Words as the opcode table numbers them -/

/-- The `n` low bytes of the number `w`, least significant byte first. -/
def lowBytes : Nat → Nat → List Byte
  | 0, _ => []
  | n + 1, w => BitVec.ofNat 8 w :: lowBytes n (w / 256)

/-- The `n` bytes of the number `w`, most significant byte first: the table reads a frame's pattern as one number whose
least significant bit is the last bit of the frame (spec/98_reader.md). -/
def bytesOfFrameWord (n w : Nat) : List Byte := (lowBytes n w).reverse

/-- The instruction of a table word.
Up to 8 bits: one of the three opcodes; else an assigned `lop` with `arg = 0`; else `IGNORE`.
16 bits: `P` with its parameter byte in bits 15 to 8, or a local request with `lop` in bits 3 to 0 and `arg` in bits 15
to 8.
24, 32 and 3232 bits: the status, settings and data frames.
A number names no stream, and the local rows' own numbers 0, 1, 3, 4 and 6 are also bytes; here they are read as the local
rows (log entry 7). A byte in opcode position is decoded by `decodeOpcode` alone, where these five are `IGNORE` (R98). -/
def decodeTableWord (nbits w : Nat) : Option Instr :=
  if nbits ≤ 8 then
    let b := BitVec.ofNat 8 w
    if isOpcode b then some (decodeOpcode b)
    else if w < 16 then
      match decodeRequest (BitVec.ofNat 4 w) 0#8 with
      | .ok i => some i
      | .error _ => some (decodeOpcode b)
    else some (decodeOpcode b)
  else if nbits = 16 then
    let first := w % 256
    let second := BitVec.ofNat 8 (w / 256)
    if first = 0x50 then some .p
    else if first < 16 then (decodeRequest (BitVec.ofNat 4 first) second).toOption
    else none
  else if nbits = 24 ∨ nbits = 32 ∨ nbits = 3232 then (decode (.frame (bytesOfFrameWord (nbits / 8) w))).toOption
  else none

end Sys2Proof
end

