-- ==== Sys2Proof/Machine/State.lean ====
section
/-! DEFINITION. The state of the machine: every register and memory the spec gives the block (spec/10_state.md R20), the
environment state it sees (R35), the two output traces (spec/00_scope.md R13), and the model's own fields that say
which agent moves next. -/

namespace Sys2Proof.Machine

/-- A byte memory: address and byte pairs, addresses strictly rising. An unlisted address holds no value (R36: the
power-on contents are unspecified; U4: reading one faults). -/
abbrev Memory := List Host.Cell

/-- A request posted on the local port: `(lop[3:0], arg[7:0])` (R94). -/
structure LocalRequest where
  lop : Lop
  arg : Byte
deriving DecidableEq, Repr

/-- The converter's latch (R35). -/
inductive Latch where
  /-- The converter has put no value in it since reset: each read is a draw (U5). -/
  | undetermined
  /-- It holds this value. -/
  | holds (v : Byte)
deriving DecidableEq, Repr

/-- Why the machine stops. -/
inductive Fault where
  /-- The sequential read of the sample buffer met this cell before anything had been stored in it. Raised by `EMIT` and
  by a data frame, only in states no run from reset reaches (R54). Safe: the spec says to fault (U4). -/
  | unwrittenCell (k : Nat)
deriving DecidableEq, Repr

/-- Why an instruction is given no meaning in a state. -/
inductive Refusal where
  /-- Raised by `exec` alone, for an instruction without a meaning; no arm uses it. Safe. -/
  | notModelled (mnemonic : String)
  /-- The instruction's precondition does not hold (R150, R157): the sequencer never takes it in this state. Raised by a
  meaning, never by `step`. Safe. -/
  | notEnabled
  /-- The frame's fields are not the register values (R87 to R89): the block never sends it in this state. Raised by the
  three frame rows, never by `step`. Safe. -/
  | notThisFrame
  /-- The state has `ENABLED = 0` and `PAUSED = 1`, for which the spec claims no rule (R25, U3). Raised by `step`. Safe:
  no run from reset reaches it. -/
  | pausedWhileDisabled
deriving DecidableEq, Repr

/-- The whole state. -/
structure State where
  /-- The read-only rate table and the other parameters (R9 to R11, R34). Nothing writes them. -/
  params : Params
  /-- `BUF[0..399]` (R22). -/
  buf : Memory
  /-- `CURSOR` (R23). -/
  cursor : CursorWord
  /-- `ENABLED` (R24). -/
  enabled : Bool
  /-- `PAUSED` (R25). -/
  paused : Bool
  /-- `TRIGMODE` (R26). -/
  trigMode : Bool
  /-- `TRIGLVL` (R31). -/
  trigLvl : Byte
  /-- `DIVIDX` (R29). -/
  dividx : Byte
  /-- `CHAN` (R30). -/
  chan : ChannelWord
  /-- `INTREF` (R27). -/
  intref : Bool
  /-- `FG` (R33). -/
  fg : Fg
  /-- `RXQ`, the delivered and unread bytes, oldest first (R35). -/
  rxq : List Byte
  /-- The requests pending on the local port, oldest first (R94, R157). -/
  localq : List LocalRequest
  /-- `LATCH` (R35). -/
  latch : Latch
  /-- The ghost `ADC_AUTO`: the converter re-issues conversions by itself (R35, R196). -/
  adcAuto : Bool
  /-- Ghost: `ADC_AUTO` has changed to 0 and the conversion then in flight has not completed yet (R196 (b)). -/
  adcTail : Bool
  /-- Everything the block has put out, in issue order: `TXLOG` and `PLOG` (R13, R65). -/
  out : List Output
  /-- The model's own: the moves that come next, first one first (R15; log entry 2). -/
  schedule : List Move
  /-- The model's own: how many free values have been drawn (log entries 2 and 4). -/
  draws : Nat
deriving DecidableEq, Repr

/-- The block after reset with the parameters `p` (R36, R211): the registers at their reset values, the buffer without
contents, nothing sent and nothing called; the receive queue and the local port empty, the latch undetermined, and the
converter armed by the bring-up (R213). -/
def State.resetWith (p : Params) : State where
  params := p
  buf := []
  cursor := 0#9
  enabled := true
  paused := false
  trigMode := false
  trigLvl := p.trigLvlReset
  dividx := p.dividxReset
  chan := p.chanReset
  intref := p.intrefReset
  fg := .idle
  rxq := []
  localq := []
  latch := .undetermined
  adcAuto := true
  adcTail := false
  out := []
  schedule := []
  draws := 0

/-- The machine right after reset, with the parameters of the device at hand. -/
def State.reset : State := State.resetWith Config.device

end Sys2Proof.Machine
end

