-- ==== Sys2Proof/Machine/Flags.lean ====
section
/-! DEFINITION. The flag computations and the derived conditions (spec/10_state.md R24 to R28). No operation sets a
condition code as a side effect (R28). -/

namespace Sys2Proof.Machine

/-- `FULL` is `CURSOR = 400` (R28). -/
def State.full (s : State) : Bool := s.cursor == 400#9

/-- `COLLECTIBLE` is `ENABLED = 1 and CURSOR = 400` (R28). -/
def State.collectible (s : State) : Bool := s.enabled && s.full

/-- The handler's gate: `ENABLED = 1 and CURSOR < 400`. `PAUSED` is not examined (R110, R114). -/
def State.accepting (s : State) : Bool := s.enabled && decide (s.cursor < 400#9)

/-- What `STOP` writes to `PAUSED`: the current value of `ENABLED` (R121). -/
def pausedByStop (enabled : Bool) : Bool := enabled

/-- `1 - ENABLED` on one bit (R17, R122). -/
def toggled (enabled : Bool) : Bool := !enabled

/-- `ENABLED = 0` and `PAUSED = 1`, the pair no operation produces (R25, U3). -/
def State.pausedWhileDisabled (s : State) : Bool := !s.enabled && s.paused

end Sys2Proof.Machine
end

