-- ==== Sys2Proof/Machine/Ops.lean ====
section
/-! DEFINITION. The named operations every meaning is written over: the sample buffer (spec/20_memory.md R51 to R54), the
transport and converter ports (spec/00_scope.md R14), silent errors and the interrupt (spec/60_exceptions.md). -/

namespace Sys2Proof.Machine

/-! ## The sample buffer -/

/-- The byte an address holds, if anything has been stored there. -/
def Memory.read : Memory → Nat → Option Byte
  | [], _ => none
  | (k, v) :: rest, a => if k = a then some v else Memory.read rest a

/-- Store one byte; the list stays strictly rising in its addresses. -/
def Memory.write : Memory → Nat → Byte → Memory
  | [], a, b => [(a, b)]
  | (k, v) :: rest, a, b =>
    if a < k then (a, b) :: (k, v) :: rest
    else if a = k then (a, b) :: rest
    else (k, v) :: Memory.write rest a b

/-- The canonical form: addresses strictly rising and inside `0..399`. No entry can equal what an unlisted address reads
as, since an unlisted address reads as no value. -/
def Memory.wf (m : Memory) : Bool :=
  decide (m.Pairwise fun x y => x.1 < y.1) && m.all fun c => decide (c.1 < capacity)

/-- The bytes at `a`, `a + 1`, up to `n` of them, or the first address among them that holds nothing. -/
def Memory.readFrom (m : Memory) : Nat → Nat → Except Nat (List Byte)
  | _, 0 => .ok []
  | a, n + 1 =>
    match Memory.read m a with
    | none => .error a
    | some b =>
      match Memory.readFrom m (a + 1) n with
      | .error k => .error k
      | .ok bs => .ok (b :: bs)

/-- The only write primitive on `BUF`: the post-increment store through `CURSOR` (R51). -/
def State.storeSample (sample : Byte) (s : State) : State :=
  { s with buf := Memory.write s.buf s.cursor.toNat sample, cursor := s.cursor + 1#9 }

/-- The only read primitive on `BUF`: all 400 cells, index 0 first (R52). -/
def State.readBuffer (s : State) : Except Nat (List Byte) := Memory.readFrom s.buf 0 capacity

/-- `CURSOR <- 0`. The cells are not cleared (R54). -/
def State.resetCursor (s : State) : State := { s with cursor := 0#9 }

/-! ## The ports -/

/-- `TXLOG`: the bytes written to the transport, in issue order (R13). -/
def txOf : List Output → List Byte
  | [] => []
  | .tx b :: rest => b :: txOf rest
  | .call _ :: rest => txOf rest

/-- `PLOG`: the calls made on the converter, in issue order (R13). -/
def callsOf : List Output → List PeriphCall
  | [] => []
  | .tx _ :: rest => callsOf rest
  | .call c :: rest => c :: callsOf rest

/-- `TXLOG` of a state. -/
def State.txlog (s : State) : List Byte := txOf s.out

/-- `PLOG` of a state. -/
def State.plog (s : State) : List PeriphCall := callsOf s.out

/-- `tx(seq)`: always accepted, at once (R14, R161). -/
def State.tx (bytes : List Byte) (s : State) : State := { s with out := s.out ++ bytes.map .tx }

/-- What a call does to the ghosts of the converter's auto-trigger (R144, R196 (a) and (b)). -/
def State.converterTold (c : PeriphCall) (s : State) : State :=
  match c with
  | .armAutoTrigger => { s with adcAuto := true, adcTail := false }
  | .configure _ _ _ .divider => { s with adcAuto := true, adcTail := false }
  | .disableAutoRetrigger => { s with adcAuto := false, adcTail := s.adcAuto || s.adcTail }
  | .configure _ _ _ .channel => s
  | .configure _ _ _ .reference => s

/-- `periph(call)` (R14, R95). -/
def State.periph (c : PeriphCall) (s : State) : State :=
  { s.converterTold c with out := s.out ++ [.call c] }

/-- The Configure call with the complete triple the mirror holds now (R143). -/
def State.configure (cause : Cause) (s : State) : State := s.periph (.configure s.chan s.dividx s.intref cause)

/-- `rx_avail()` (R14). -/
def State.rxAvail (s : State) : Nat := s.rxq.length

/-- `rx_read()`: removes and returns the oldest delivered byte (R14, R59). -/
def State.rxRead (s : State) : Option (Byte × State) :=
  match s.rxq with
  | [] => none
  | b :: rest => some (b, { s with rxq := rest })

/-- Take the oldest pending local request (R157). -/
def State.takeRequest (s : State) : Option (LocalRequest × State) :=
  match s.localq with
  | [] => none
  | q :: rest => some (q, { s with localq := rest })

/-- `latch()`: the converter's latch at this instant. A read of a latch that nothing has filled since reset is a draw
(R35, U5). -/
def State.latchRead (s : State) : Byte × State :=
  match s.latch with
  | .holds v => (v, s)
  | .undetermined => (Config.freeLatch s.draws, { s with draws := s.draws + 1 })

/-! ## Silent errors and the interrupt -/

/-- `drop(class)`: nothing is recorded, no control transfers, the operation ends with no further effect (R14, R180). -/
def State.drop (_class : ErrorClass) (s : State) : State := s

/-- Entry to the completion handler: it saves nothing and changes no register of the block (R189). The event is no longer
in flight, which only the ghost of R196 (b) records. -/
def State.enterHandler (s : State) : State := { s with adcTail := s.adcAuto && s.adcTail }

/-- Return from the completion handler: the foreground resumes exactly where it was (R190). -/
def State.leaveHandler (s : State) : State := s

/-! ## Preconditions -/

/-- Run an operation where its precondition holds; elsewhere the instruction is not one the sequencer takes (R15). -/
def whenEnabled (precondition : Bool) (result : Host.Outcome State Fault Refusal) : Host.Outcome State Fault Refusal :=
  if precondition then result else .refused .notEnabled

end Sys2Proof.Machine
end

