-- ==== Sys2Proof/Machine/Acquisition.lean ====
section
/-! DEFINITION. The acquisition engine: the conversion-complete handler (spec/40_acquisition.md). -/

namespace Sys2Proof.Machine

/-- `ADC_DONE s` (R110): in any state, whatever `FG` is. With `CURSOR = 400` the sample is an E3 (R112, R183); with
`ENABLED = 0` it is lost too, which the spec does not class as an error (R113). -/
def execAdcDone (sample : Byte) (s : State) : Host.Outcome State Fault Refusal :=
  let handled :=
    if s.accepting then s.storeSample sample
    else if s.enabled then s.drop .bufferOverflow
    else s
  .next handled.leaveHandler

end Sys2Proof.Machine
end

