-- ==== Sys2Proof/Machine/Operands.lean ====
section
/-! DEFINITION. The operand forms: which index and channel are accepted (spec/42_configuration.md R140, R141), the unsigned
comparison of the trigger (R125), and the rate bytes an index selects (spec/10_state.md R34). -/

namespace Sys2Proof.Machine

/-- `idx < T`, the byte zero-extended, so that with `T = 256` every index is accepted (R17, R141). -/
def indexAccepted (p : Params) (idx : Byte) : Bool := decide (idx.toNat < p.entries)

/-- `ch <= 5` on 8 bits (R8, R140). -/
def channelAccepted (ch : Byte) : Bool := decide (ch ≤ 5#8)

/-- `ch[2:0]` (R17, R140). -/
def channelOf (ch : Byte) : ChannelWord := BitVec.ofNat 3 ch.toNat

/-- `v >= TRIGLVL`, unsigned on 8 bits (R125). -/
def triggerReached (v level : Byte) : Bool := decide (level ≤ v)

/-- `RATE_INT`: the integer part of the rate (R34). -/
def rateInt (e : RateEntry) : Byte := BitVec.ofNat 8 (e.num / e.den)

/-- `RATE_CENTI`: the hundredths of the fractional part, truncated, over exact rationals (R34). -/
def rateCenti (e : RateEntry) : Byte := BitVec.ofNat 8 (e.num % e.den * 100 / e.den)

/-- The two rate bytes the settings frame carries for an index (R88). Outside the table the spec names no value and the
read gives a free one (log entry 6). -/
def rateBytes (p : Params) (idx : Byte) : Byte × Byte :=
  match p.table[idx.toNat]? with
  | some e => (rateInt e, rateCenti e)
  | none => Config.rateBeyondTable idx

end Sys2Proof.Machine
end

