-- ==== Sys2Proof/Machine/Frames.lean ====
section
/-! DEFINITION. The frames built from the register values at the moment they are sent (spec/30_encoding.md R87 to R89), and
the meanings of the frame rows. A frame row sends its frame where the block would send exactly that frame. -/

namespace Sys2Proof.Machine

/-- `STATUS` (R89). -/
def State.statusFrame (s : State) : List Byte := statusBytes s.enabled s.paused

/-- `SETTINGS` (R88). -/
def State.settingsFrame (s : State) : List Byte :=
  settingsBytes s.dividx (rateBytes s.params s.dividx).1 (rateBytes s.params s.dividx).2

/-- `tx(STATUS)`. -/
def State.sendStatus (s : State) : State := s.tx s.statusFrame

/-- `tx(SETTINGS)`. -/
def State.sendSettings (s : State) : State := s.tx s.settingsFrame

/-- `tx(DATA)` with the samples `d` read from the buffer (R87). -/
def State.sendData (d : List Byte) (s : State) : State := s.tx (dataBytes d)

/-- Where a data frame can be sent: the emission step's precondition (R52, R158). -/
def State.emitEnabled (s : State) : Bool := s.fg == .idle && s.collectible

/-- `TX.DATA`: the frame goes out whole, `BUF[0]` first (R87, R91). -/
def execTxData (d : List Byte) (s : State) : Host.Outcome State Fault Refusal :=
  whenEnabled s.emitEnabled
    (match s.readBuffer with
     | .error k => .fault (.unwrittenCell k)
     | .ok bytes => if d = bytes then .next (s.sendData d) else .refused .notThisFrame)

/-- `TX.SETTINGS` (R88): sent by `R` in `Idle` and by the parameter step in `WaitParam` (R160); no frame is sent during a
trigger wait (R126). -/
def execTxSettings (i r c : Byte) (s : State) : Host.Outcome State Fault Refusal :=
  whenEnabled (s.fg != .trigWait)
    (if (i, r, c) = (s.dividx, rateBytes s.params s.dividx) then .next s.sendSettings else .refused .notThisFrame)

/-- `TX.STATUS` (R89): sent by operations the foreground does in `Idle` (R160). -/
def execTxStatus (e p : Bool) (s : State) : Host.Outcome State Fault Refusal :=
  whenEnabled (s.fg == .idle)
    (if (e, p) = (s.enabled, s.paused) then .next s.sendStatus else .refused .notThisFrame)

end Sys2Proof.Machine
end

