-- ==== Sys2Proof/Machine/Controller.lean ====
section
/-! DEFINITION. The sampling controller: `START`, `STOP`, `TOGGLE`, `ARMTRIG`, `TRIGPOLL` (spec/41_sampling_controller.md).
Effects stand in the order of the rules' pseudocode (R130). -/

namespace Sys2Proof.Machine

/-- The effect of START after `ENABLED <- 1` (R120). -/
def State.resume (s : State) : State :=
  ({ s with paused := false }.resetCursor.periph .armAutoTrigger).sendStatus

/-- The effect of START (R120). -/
def State.startOp (s : State) : State := { s with enabled := true }.resume

/-- The effect of STOP (R121). -/
def State.stopOp (s : State) : State :=
  ({ s with paused := pausedByStop s.enabled }.periph .disableAutoRetrigger).sendStatus

/-- The effect of TOGGLE (R122): the frame that START or STOP sends is the only one. -/
def State.toggleOp (s : State) : State :=
  let flipped := { s with enabled := toggled s.enabled }
  if flipped.enabled then flipped.startOp else flipped.stopOp

/-- `START` (R120). -/
def execStart (s : State) : Host.Outcome State Fault Refusal :=
  whenEnabled (s.fg == .idle) (.next s.startOp)

/-- `STOP` (R121). -/
def execStop (s : State) : Host.Outcome State Fault Refusal :=
  whenEnabled (s.fg == .idle) (.next s.stopOp)

/-- `ARMTRIG level` (R123): no frame, no call. -/
def execArmTrig (level : Byte) (s : State) : Host.Outcome State Fault Refusal :=
  whenEnabled (s.fg == .idle) (.next { s with trigMode := true, trigLvl := level })

/-- `TRIGPOLL` (R125): one poll of the trigger wait. -/
def execTrigPoll (s : State) : Host.Outcome State Fault Refusal :=
  whenEnabled (s.fg == .trigWait)
    (let (v, polled) := s.latchRead
     if triggerReached v s.trigLvl then .next { polled.resetCursor with fg := .idle } else .next polled)

end Sys2Proof.Machine
end

