-- ==== Sys2Proof/Machine/Settings.lean ====
section
/-! DEFINITION. The configuration store: `SETCHAN`, `SETDIV`, `SETREF` (spec/42_configuration.md). -/

namespace Sys2Proof.Machine

/-- `SETDIV idx` (R141): the state after it, and whether the index was accepted. -/
def State.setDiv (idx : Byte) (s : State) : State × Bool :=
  if indexAccepted s.params idx then ({ s with dividx := idx }.configure .divider, true)
  else (s.drop .invalidConfiguration, false)

/-- `SETCHAN ch` (R140): no frame in either case. -/
def execSetChan (ch : Byte) (s : State) : Host.Outcome State Fault Refusal :=
  whenEnabled (s.fg == .idle)
    (if channelAccepted ch then .next ({ s with chan := channelOf ch }.configure .channel)
     else .next (s.drop .invalidConfiguration))

/-- `SETREF useInternal` (R142): always succeeds, no frame. -/
def execSetRef (useInternal : Bool) (s : State) : Host.Outcome State Fault Refusal :=
  whenEnabled (s.fg == .idle) (.next ({ s with intref := useInternal }.configure .reference))

end Sys2Proof.Machine
end

