-- ==== Sys2Proof/Machine/Protocol.lean ====
section
/-! DEFINITION. The commands of the receive stream and the data-frame emission (spec/43_frame_protocol.md). The byte itself
has been read from the receive queue by the step that runs the meaning (Machine/Sequencer.lean). -/

namespace Sys2Proof.Machine

/-- `P`, first byte (R152). -/
def execP (s : State) : Host.Outcome State Fault Refusal :=
  whenEnabled (s.fg == .idle) (.next { s with fg := .waitParam })

/-- `P`, parameter byte (R153): the settings frame goes out only for an accepted index, with the new index in it. -/
def execParam (idx : Byte) (s : State) : Host.Outcome State Fault Refusal :=
  whenEnabled (s.fg == .waitParam)
    (let (configured, accepted) := s.setDiv idx
     let replied := if accepted then configured.sendSettings else configured
     .next { replied with fg := .idle })

/-- `S` (R154): TOGGLE. -/
def execS (s : State) : Host.Outcome State Fault Refusal :=
  whenEnabled (s.fg == .idle) (.next s.toggleOp)

/-- `R` (R155): the settings frame and nothing else. -/
def execR (s : State) : Host.Outcome State Fault Refusal :=
  whenEnabled (s.fg == .idle) (.next s.sendSettings)

/-- `IGNORE` (R156): the byte is gone and nothing else happens. -/
def execIgnore (_b : Byte) (s : State) : Host.Outcome State Fault Refusal :=
  whenEnabled (s.fg == .idle) (.next (s.drop .unrecognisedCommand))

/-- `EMIT` (R158): one data frame, then the cursor reset, or the trigger wait with `CURSOR` left at 400 (R124). A cell
that was never written stops it, which no reachable state does (R54, U4). -/
def execEmit (s : State) : Host.Outcome State Fault Refusal :=
  whenEnabled s.emitEnabled
    (match s.readBuffer with
     | .error k => .fault (.unwrittenCell k)
     | .ok d =>
       let sent := s.sendData d
       if sent.trigMode then .next { sent with fg := .trigWait } else .next sent.resetCursor)

end Sys2Proof.Machine
end

