-- ==== Sys2Proof/Machine/Dispatch.lean ====
section
/-! DEFINITION. One arm per constructor of `Instr`, each a call of its own meaning. -/

namespace Sys2Proof.Machine

/-- The meaning of an instruction in a state. -/
def exec (i : Instr) (s : State) : Host.Outcome State Fault Refusal :=
  match i with
  | .p => Sys2Proof.Machine.execP s
  | .param idx => Sys2Proof.Machine.execParam idx s
  | .s => Sys2Proof.Machine.execS s
  | .r => Sys2Proof.Machine.execR s
  | .ignore b => Sys2Proof.Machine.execIgnore b s
  | .start => Sys2Proof.Machine.execStart s
  | .stop => Sys2Proof.Machine.execStop s
  | .armTrig level => Sys2Proof.Machine.execArmTrig level s
  | .setChan ch => Sys2Proof.Machine.execSetChan ch s
  | .setRef useInternal => Sys2Proof.Machine.execSetRef useInternal s
  | .adcDone sample => Sys2Proof.Machine.execAdcDone sample s
  | .emit => Sys2Proof.Machine.execEmit s
  | .trigPoll => Sys2Proof.Machine.execTrigPoll s
  | .txData d => Sys2Proof.Machine.execTxData d s
  | .txSettings idx r c => Sys2Proof.Machine.execTxSettings idx r c s
  | .txStatus e p => Sys2Proof.Machine.execTxStatus e p s

end Sys2Proof.Machine
end

