-- ==== Sys2Proof/Machine/Sequencer.lean ====
section
/-! DEFINITION. Which step comes next and what it runs: the agents' moves (spec/00_scope.md R5, R15), the foreground loop's
choice (spec/43_frame_protocol.md R150), the fetch of commands and local requests (R151, R153, R157), and reset
(spec/70_reset_and_hazards.md R211). -/

namespace Sys2Proof.Machine

/-- What a step has to do: run an instruction of the table in a state from which its bytes have been read, make a state
change that is no instruction, or refuse. -/
inductive Fetched where
  | run (i : Instr) (s : State)
  | quiet (s : State)
  | refuse (r : Refusal)
deriving DecidableEq, Repr

/-! ## The foreground loop -/

/-- The foreground actions enabled in a state (R150). In `TrigWait` no command is read and no request served (R126); in
`WaitParam` only the parameter step can be enabled (R163). -/
def State.enabledActions (s : State) : List FgAction :=
  match s.fg with
  | .idle =>
    (if 0 < s.rxAvail then [.cmd] else []) ++ (if s.localq.isEmpty then [] else [.loc])
      ++ (if s.collectible then [.emit] else [])
  | .waitParam => if 0 < s.rxAvail then [.param] else []
  | .trigWait => [.poll]

/-- The actions `FG_ORDER` leaves to choose from (R150): `cmd_first` takes the command step, then the local step, before
the emission step; `emit_first` takes the emission step first. -/
def admitted (order : FgOrder) (actions : List FgAction) : List FgAction :=
  match order with
  | .any => actions
  | .cmdFirst => if .cmd ∈ actions then [.cmd] else if .loc ∈ actions then [.loc] else actions
  | .emitFirst => if .emit ∈ actions then [.emit] else actions

/-- The action the foreground takes: the preferred one if it is admitted, else the first admitted one; none when no
action is enabled (R150). -/
def State.chooseAction (prefer : FgAction) (s : State) : Option FgAction :=
  match s.enabledActions with
  | [] => none
  | [a] => some a
  | actions =>
    let choices := admitted s.params.fgOrder actions
    if prefer ∈ choices then some prefer else choices.head?

/-- What a foreground action runs. A command or parameter step reads exactly one byte (R164), a local step takes one
request and discards it when its `lop` is not assigned (R157). -/
def State.takeAction (a : FgAction) (s : State) : Fetched :=
  match a with
  | .cmd =>
    match s.rxRead with
    | some (b, t) => .run (decodeOpcode b) t
    | none => .quiet s
  | .param =>
    match s.rxRead with
    | some (b, t) => .run (decodeParameter b) t
    | none => .quiet s
  | .loc =>
    match s.takeRequest with
    | some (q, t) =>
      match decodeRequest q.lop q.arg with
      | .ok i => .run i t
      | .error _ => .quiet t
    | none => .quiet s
  | .emit => .run .emit s
  | .poll => .run .trigPoll s

/-! ## The environment -/

/-- Reset (R211): every register takes its reset value, nothing is sent and nothing called, both traces start empty. Bytes
in the receive queue and pending requests survive or not as the environment has it (R212, log entry 8). The model's own
fields go on. -/
def State.restart (keepRx keepLocal : Bool) (s : State) : State :=
  { State.resetWith s.params with
    rxq := if keepRx then s.rxq else []
    localq := if keepLocal then s.localq else []
    schedule := s.schedule
    draws := s.draws }

/-- The next move: the first one scheduled, or a free one when the schedule is empty (log entry 2). -/
def State.nextMove (s : State) : Move × State :=
  match s.schedule with
  | m :: rest => (m, { s with schedule := rest })
  | [] => (Config.freeMove s.draws, { s with draws := s.draws + 1 })

/-- Whether a move is a reset. -/
def isReset : Move → Bool
  | .reset _ _ => true
  | .convert _ => false
  | .deliver _ => false
  | .setLatch _ => false
  | .post _ _ => false
  | .foreground _ => false

/-- What a move has to do. A foreground with no enabled action keeps polling (R150). -/
def State.perform (m : Move) (s : State) : Fetched :=
  match m with
  | .convert sample => .run (.adcDone sample) s.enterHandler
  | .deliver b => .quiet { s with rxq := s.rxq ++ [b] }
  | .setLatch v => .quiet { s with latch := .holds v }
  | .post lop arg => .quiet { s with localq := s.localq ++ [⟨lop, arg⟩] }
  | .foreground prefer =>
    match s.chooseAction prefer with
    | some a => s.takeAction a
    | none => .quiet s
  | .reset keepRx keepLocal => .quiet (s.restart keepRx keepLocal)

/-- What a move has to do, with the state `ENABLED = 0, PAUSED = 1` refused for every move but reset (U3). -/
def State.fetchMove (m : Move) (s : State) : Fetched :=
  if s.pausedWhileDisabled && !isReset m then .refuse .pausedWhileDisabled else s.perform m

/-- What the next step has to do. -/
def fetch (s : State) : Fetched :=
  let (m, t) := s.nextMove
  t.fetchMove m

end Sys2Proof.Machine
end

