-- ==== Sys2Proof/Machine/Placement.lean ====
section
/-! DEFINITION. How a word of the opcode table is put where the very next step runs it (log entry 7). It stands for the
outside world: the host's byte on the receive queue, a request on the local port, and the move that serves it. -/

namespace Sys2Proof.Machine

/-- A buffer that lists these bytes from address `a` on. -/
def Memory.ofBytes : Nat → List Byte → Memory
  | _, [] => []
  | a, b :: rest => (a, b) :: Memory.ofBytes (a + 1) rest

/-- The state with no refused flag pair and no full buffer waiting, in `Idle`, so that an emission cannot go first. -/
def State.readyToServe (s : State) : State :=
  { s with
    fg := .idle
    paused := s.enabled && s.paused
    cursor := if s.collectible then 0#9 else s.cursor }

/-- These bytes next on the receive queue, and a foreground move that takes the command step. -/
def State.placeCommand (bytes : List Byte) (s : State) : State :=
  { s.readyToServe with rxq := bytes ++ s.rxq, schedule := .foreground .cmd :: s.schedule }

/-- This request next on the local port, and a foreground move that takes the local step; no command waits. -/
def State.placeRequest (lop : Lop) (arg : Byte) (s : State) : State :=
  { s.readyToServe with
    rxq := []
    localq := ⟨lop, arg⟩ :: s.localq
    schedule := .foreground .loc :: s.schedule }

/-- Put an instruction next. `operand` is the byte that follows `P` on the receive queue.
A frame is sent only by another operation (R160), so for a frame the operation that sends it comes next, with the
register values the frame reports: `R` for a settings frame, `START` or `STOP` for a status frame, `EMIT` for a data
frame. -/
def State.placeInstr (i : Instr) (operand : Byte) (s : State) : State :=
  match i with
  | .p => s.placeCommand [0x50#8, operand]
  | .param idx =>
    { s.readyToServe with fg := .waitParam, rxq := idx :: s.rxq, schedule := .foreground .param :: s.schedule }
  | .s => s.placeCommand [0x53#8]
  | .r => s.placeCommand [0x52#8]
  | .ignore b => s.placeCommand [b]
  | .start => s.placeRequest 0x0#4 0#8
  | .stop => s.placeRequest 0x1#4 0#8
  | .armTrig level => s.placeRequest 0x3#4 level
  | .setChan ch => s.placeRequest 0x4#4 ch
  | .setRef useInternal => s.placeRequest 0x6#4 (zext8 useInternal)
  | .adcDone sample => { s with paused := s.enabled && s.paused, schedule := .convert sample :: s.schedule }
  | .emit =>
    { s with
      fg := .idle, enabled := true, cursor := 400#9, rxq := [], localq := []
      schedule := .foreground .emit :: s.schedule }
  | .trigPoll =>
    { s with paused := s.enabled && s.paused, fg := .trigWait, schedule := .foreground .poll :: s.schedule }
  | .txData d =>
    { s with
      fg := .idle, enabled := true, cursor := 400#9, buf := Memory.ofBytes 0 d, rxq := [], localq := []
      schedule := .foreground .emit :: s.schedule }
  | .txSettings i _ _ => { s with dividx := i }.placeCommand [0x52#8]
  | .txStatus e p =>
    { s with enabled := e, paused := false }.placeRequest (if e && !p then 0x0#4 else 0x1#4) 0#8

/-- Put a table word next; a word that decodes to nothing changes nothing. -/
def State.placeWord (s : State) (nbits w : Nat) : State :=
  match decodeTableWord nbits w with
  | some i => s.placeInstr i (if nbits = 16 then BitVec.ofNat 8 (w / 256) else 0#8)
  | none => s

end Sys2Proof.Machine
end

