-- ==== Sys2Proof/Machine/Step.lean ====
section
/-! DEFINITION. One step of one agent (spec/00_scope.md R15). -/

namespace Sys2Proof.Machine

/-- Carry out what was fetched. -/
def Fetched.carryOut : Fetched → Host.Outcome State Fault Refusal
  | .run i t => exec i t
  | .quiet t => .next t
  | .refuse r => .refused r

/-- One step in which the given move is the one made: the schedule is not looked at. -/
def stepMove (m : Move) (s : State) : Host.Outcome State Fault Refusal := (s.fetchMove m).carryOut

/-- One step: the next move of the schedule, or a free one. -/
def step (s : State) : Host.Outcome State Fault Refusal := (fetch s).carryOut

/-- The state in which the very next step runs the instruction of this table word. -/
def State.withFetchWord (s : State) (nbits w : Nat) : State := s.placeWord nbits w

end Sys2Proof.Machine
end

