-- ==== Sys2Proof/Safety.lean ====
section
/-! DEFINITION. What claims are stated in terms of: the invariants of spec/10_state.md R37, the mirror rule
(spec/42_configuration.md R143), quiescence (spec/70_reset_and_hazards.md R229), the optional assumption about the
converter (spec/60_exceptions.md R196) and the liveness assumption (R228). -/

namespace Sys2Proof.Machine

/-- The samples the buffer holds below the cursor, oldest first. -/
def State.collected (s : State) : Except Nat (List Byte) := Memory.readFrom s.buf 0 s.cursor.toNat

/-- R37 (a) to (e), the part of (f) that a single state shows (every cell below the cursor has been written), and the
canonical form of the buffer. -/
structure StateInv (s : State) : Prop where
  bufferCanonical : Memory.wf s.buf = true
  cursorInRange : s.cursor.toNat ≤ 400
  pausedImpliesEnabled : s.paused = true → s.enabled = true
  indexInTable : s.dividx.toNat < s.params.entries
  channelInSet : s.chan.toNat ≤ 5
  trigWaitHolds : s.fg = .trigWait → s.trigMode = true ∧ s.cursor = 400#9 ∧ s.enabled = true
  belowCursorWritten : ∀ k, k < s.cursor.toNat → ∃ b, Memory.read s.buf k = some b

/-- The operands of a Configure call, if it is one. -/
def configureOperands : PeriphCall → Option (ChannelWord × Byte × Bool)
  | .configure ch idx ref _ => some (ch, idx, ref)
  | .armAutoTrigger => none
  | .disableAutoRetrigger => none

/-- The operands of the last Configure call of a trace, or `default` if it has none. -/
def lastConfigured (default : ChannelWord × Byte × Bool) : List PeriphCall → ChannelWord × Byte × Bool
  | [] => default
  | c :: rest => lastConfigured ((configureOperands c).getD default) rest

/-- The mirror rule (R143): the operands of the last Configure call in `PLOG`, or the reset values if there has been
none, equal the registers. -/
def State.mirrorHolds (s : State) : Prop :=
  lastConfigured (s.params.chanReset, s.params.dividxReset, s.params.intrefReset) s.plog = (s.chan, s.dividx, s.intref)

/-- Quiescent: no foreground action is enabled, in `Idle` (R229). -/
def State.quiescent (s : State) : Prop :=
  s.fg = .idle ∧ s.rxq = [] ∧ s.localq = [] ∧ ¬(s.enabled = true ∧ s.cursor = 400#9)

/-- Whether a move is a conversion that completes. -/
def isConvert : Move → Bool
  | .convert _ => true
  | .deliver _ => false
  | .setLatch _ => false
  | .post _ _ => false
  | .foreground _ => false
  | .reset _ _ => false

/-- A move that neither resets the block nor changes what the trigger poll sees. -/
def leavesTriggerAlone : Move → Bool
  | .reset _ _ => false
  | .setLatch _ => false
  | .convert _ => true
  | .deliver _ => true
  | .post _ _ => true
  | .foreground _ => true

/-- A move that neither resets the block nor delivers a byte. -/
def leavesStreamAlone : Move → Bool
  | .reset _ _ => false
  | .deliver _ => false
  | .convert _ => true
  | .setLatch _ => true
  | .post _ _ => true
  | .foreground _ => true

/-! ## The optional assumption about the converter -/

/-- R196 (b): a conversion completes only while `ADC_AUTO = 1`, or as the one conversion that was in flight when it
changed to 0. Nothing in `step` assumes this. -/
def converterAllows (s : State) : Move → Bool
  | .convert _ => s.adcAuto || s.adcTail
  | .deliver _ => true
  | .setLatch _ => true
  | .post _ _ => true
  | .foreground _ => true
  | .reset _ _ => true

/-- R196 (c) for a schedule: each conversion is followed by the latch taking its sample, and the latch changes at no
other time. -/
def latchFollows : List Move → Bool
  | [] => true
  | .convert v :: .setLatch v' :: rest => v == v' && latchFollows rest
  | .convert _ :: _ => false
  | .setLatch _ :: _ => false
  | .deliver _ :: rest => latchFollows rest
  | .post _ _ :: rest => latchFollows rest
  | .foreground _ :: rest => latchFollows rest
  | .reset _ _ :: rest => latchFollows rest

/-! ## Executions and fairness -/

/-- Run a list of moves, stopping at the first fault or refusal: any interleaving of the agents' steps (R15). -/
def runMoves : List Move → State → Host.Outcome State Fault Refusal
  | [], s => .next s
  | m :: rest, s =>
    match stepMove m s with
    | .next t => runMoves rest t
    | .fault r => .fault r
    | .refused r => .refused r

/-- Run `n` steps of the machine, stopping at the first fault or refusal. -/
def runSteps : Nat → State → Host.Outcome State Fault Refusal
  | 0, s => .next s
  | n + 1, s =>
    match step s with
    | .next t => runSteps n t
    | .fault r => .fault r
    | .refused r => .refused r

/-- An infinite execution: `moves n` takes state `n` to state `n + 1` (R15). -/
def Execution (moves : Nat → Move) (run : Nat → State) : Prop :=
  ∀ n, stepMove (moves n) (run n) = .next (run (n + 1))

/-- The foreground action a move takes, if it takes one. -/
def actionTaken (m : Move) (s : State) : Option FgAction :=
  match m with
  | .foreground prefer => s.chooseAction prefer
  | .convert _ => none
  | .deliver _ => none
  | .setLatch _ => none
  | .post _ _ => none
  | .reset _ _ => none

/-- The liveness assumption (R228). Nothing in `step` assumes it. -/
structure Fair (moves : Nat → Move) (run : Nat → State) : Prop where
  /-- Weak fairness: an action that stays enabled from some moment on is taken at some later moment. -/
  taken : ∀ (a : FgAction) (n : Nat), (∀ m, n ≤ m → a ∈ (run m).enabledActions) →
    ∃ m, n ≤ m ∧ actionTaken (moves m) (run m) = some a
  /-- In `Idle` the choice starves no action: one that is enabled at infinitely many of the choices made in `Idle` is
  taken, even if it is not enabled between them (log entry 20). -/
  notStarved : ∀ (a : FgAction) (n : Nat),
    (∀ k, n ≤ k → ∃ m, k ≤ m ∧ (run m).fg = .idle ∧ a ∈ (run m).enabledActions ∧
      actionTaken (moves m) (run m) ≠ none) →
    ∃ m, n ≤ m ∧ actionTaken (moves m) (run m) = some a

end Sys2Proof.Machine
end

