-- ==== Sys2Proof/Certificates/Slice0/Obligations.lean ====
section
/-! DEFINITION. The statements for the provers. Each docstring names the rules of the spec it formalises, and the decision of
spec/92_eei_decisions.md or the log entry a clause rests on where the source document does not settle it. -/

open Sys2Proof Sys2Proof.Machine

/-! ## Encoding -/

/-- Every well-formed instruction decodes back from its code, operands and all (R80 to R98). -/
def Obligations.DecodeAfterEncodeGivesInstrBack : Prop :=
  ∀ i : Instr, WellFormed i = true → decode (encode i) = .ok i

/-- What decodes is well-formed, and outside the local port (where `START`, `STOP` and `SETREF` ignore bits of `arg`, R94)
its code is the only one that decodes to it. On the local port the operation code is kept. -/
def Obligations.DecodedCodeIsTheEncoding : Prop :=
  ∀ (c : Code) (i : Instr), decode c = .ok i →
    WellFormed i = true ∧
      ((∀ lop arg, c ≠ .request lop arg) → encode i = c) ∧
      (∀ lop arg, c = .request lop arg → ∃ arg', encode i = .request lop arg')

/-- R82, R86, R98: a stream of commands is read back as exactly those commands, one instruction a byte, each length known
from the first byte. -/
def Obligations.CommandStreamDecodesToItsCommands : Prop :=
  ∀ cs : List Command, (∀ c ∈ cs, c.wellFormed = true) →
    decodeStream false (cs.flatMap Command.bytes) = cs.flatMap Command.instrs

/-- R82, R84: every byte stream that starts in opcode position is the bytes of well-formed commands, possibly followed by a
`P` whose parameter has not come. -/
def Obligations.EveryByteStreamIsCommands : Prop :=
  ∀ bytes : List Byte, ∃ cs : List Command, (∀ c ∈ cs, c.wellFormed = true) ∧
    (bytes = cs.flatMap Command.bytes ∨ bytes = cs.flatMap Command.bytes ++ [0x50#8])

/-- R82, R86: two sequences of well-formed commands with the same bytes are the same sequence. -/
def Obligations.CommandBytesDetermineTheCommands : Prop :=
  ∀ cs ds : List Command, (∀ c ∈ cs, c.wellFormed = true) → (∀ d ∈ ds, d.wellFormed = true) →
    cs.flatMap Command.bytes = ds.flatMap Command.bytes → cs = ds

/-- R81, R94, R96, R98: codes written out from the spec's tables; in opcode position every byte but the three opcodes
is `IGNORE` (R84). -/
def Obligations.WrittenOutCodesDecode : Prop :=
  decode (.opcode 0x50#8) = .ok .p ∧ decode (.opcode 0x52#8) = .ok .r ∧ decode (.opcode 0x53#8) = .ok .s ∧
    decode (.opcode 0x70#8) = .ok (.ignore 0x70#8) ∧ decode (.parameter 0x53#8) = .ok (.param 83#8) ∧
    decode (.request 0x0#4 0xFF#8) = .ok .start ∧ decode (.request 0x1#4 0x00#8) = .ok .stop ∧
    decode (.request 0x3#4 0x80#8) = .ok (.armTrig 128#8) ∧ decode (.request 0x4#4 0x05#8) = .ok (.setChan 5#8) ∧
    decode (.request 0x6#4 0xFF#8) = .ok (.setRef true) ∧ decode (.request 0x6#4 0xFE#8) = .ok (.setRef false) ∧
    decode (.event 0x9C#8) = .ok (.adcDone 0x9C#8) ∧
    decode (.frame [0x53#8, 0x03#8, 0x4C#8, 0x5C#8]) = .ok (.txSettings 3#8 76#8 92#8) ∧
    decode (.frame [0x58#8, 0x01#8, 0x01#8]) = .ok (.txStatus true true) ∧
    decode (.frame [0x58#8, 0x00#8, 0x01#8]) = .error .notAFrame ∧
    (∀ b : Byte, decode (.opcode b) = .ok (.ignore b) ↔ b ≠ 0x50#8 ∧ b ≠ 0x52#8 ∧ b ≠ 0x53#8)

/-! ## Reset -/

/-- R36 and R211 as the machine has them: the flags and `FG` the document states; `CURSOR = 0` (D7), the reset parameters
(D8) and the empty outputs (D19) the spec decides; no cell of `BUF` holds a value. What `TRIGLVL` holds is left open. -/
def Obligations.ResetStateAsListed : Prop :=
  State.reset.enabled = true ∧ State.reset.paused = false ∧ State.reset.trigMode = false ∧ State.reset.fg = .idle ∧
    State.reset.cursor = 0#9 ∧ State.reset.dividx = State.reset.params.dividxReset ∧
    State.reset.chan = State.reset.params.chanReset ∧ State.reset.intref = State.reset.params.intrefReset ∧
    (∀ k, Memory.read State.reset.buf k = none) ∧ State.reset.txlog = [] ∧ State.reset.plog = [] ∧
    State.reset.out = []

/-- R37, R143: the invariant and the mirror rule hold at reset, whatever the parameters of the device are. -/
def Obligations.InvariantsHoldAtReset : Prop := StateInv State.reset ∧ State.reset.mirrorHolds

/-- R210 to R212: a reset move, from any state whatever, puts every register at its reset value, forgets the buffer and a
pending parameter wait, and sends and calls nothing. The values of `CURSOR`, `DIVIDX`, `CHAN` and `INTREF` are the spec's
decisions D7 and D8. Three clauses are the model's: `TRIGLVL` takes the device's own value (log entry 3; R36 leaves it
unspecified), the latch is undetermined until the converter fills it again (log entry 4, after R35 and U5; the block
itself does not reset the latch), and what stays in the receive queue and on the local port is what the move says (log
entry 8). -/
def Obligations.ResetMoveFromAnyState : Prop :=
  ∀ (keepRx keepLocal : Bool) (s : State), ∃ t, stepMove (.reset keepRx keepLocal) s = .next t ∧
    t.params = s.params ∧ t.enabled = true ∧ t.paused = false ∧ t.trigMode = false ∧ t.fg = .idle ∧ t.cursor = 0#9 ∧
    t.dividx = s.params.dividxReset ∧ t.chan = s.params.chanReset ∧ t.intref = s.params.intrefReset ∧
    t.trigLvl = s.params.trigLvlReset ∧
    (∀ k, Memory.read t.buf k = none) ∧ t.out = [] ∧ t.latch = .undetermined ∧
    t.rxq = (if keepRx then s.rxq else []) ∧ t.localq = (if keepLocal then s.localq else [])

/-! ## The acquisition engine -/

/-- R110: the store at the cursor and the increment when `ENABLED = 1` and `CURSOR < 400`, in any state whatever `FG` is;
otherwise no effect. Every other cell and everything else is as before. -/
def Obligations.ConversionStoresOrIsDropped : Prop :=
  ∀ (v : Byte) (s : State),
    (s.enabled = true → s.cursor.toNat < 400 → ∃ t, exec (.adcDone v) s = .next t ∧
      Memory.read t.buf s.cursor.toNat = some v ∧
      (∀ k, k ≠ s.cursor.toNat → Memory.read t.buf k = Memory.read s.buf k) ∧
      t.cursor.toNat = s.cursor.toNat + 1 ∧ { t with buf := s.buf, cursor := s.cursor } = s) ∧
    (¬(s.enabled = true ∧ s.cursor.toNat < 400) → exec (.adcDone v) s = .next s)

/-- R115, R112: from a buffer that holds `d`, the events `vs` in any foreground state fill it with the first of them that
fit, in order, and every further one is dropped; nothing is sent and nothing else changes but the converter's ghost. -/
def Obligations.EventsFillTheBufferInOrder : Prop :=
  ∀ (vs d : List Byte) (s : State), s.enabled = true → s.cursor.toNat ≤ 400 → s.collected = .ok d →
    ∃ t, runMoves (vs.map .convert) s = .next t ∧ t.collected = .ok ((d ++ vs).take 400) ∧
      t.cursor.toNat = min 400 (s.cursor.toNat + vs.length) ∧
      { t with buf := s.buf, cursor := s.cursor, adcTail := s.adcTail } = s

/-- R87, R115, R158, R159: from an empty buffer in `Idle` with nothing else to serve, 400 or more events and one turn of the
foreground send exactly one data frame: `FF AA`, the first 400 samples in capture order, `55 EE`. Then the cursor is 0,
or, with trigger mode on, the trigger wait begins with the cursor still at 400. -/
def Obligations.FullBufferIsSentAsOneDataFrame : Prop :=
  ∀ (vs : List Byte) (prefer : FgAction) (rest : List Move) (s : State), 400 ≤ vs.length →
    s.enabled = true → s.cursor = 0#9 → s.fg = .idle → s.rxq = [] → s.localq = [] →
    s.schedule = vs.map .convert ++ .foreground prefer :: rest →
    ∃ t, runSteps (vs.length + 1) s = .next t ∧
      t.txlog = s.txlog ++ ([0xFF#8, 0xAA#8] ++ vs.take 400 ++ [0x55#8, 0xEE#8]) ∧
      t.plog = s.plog ∧ t.schedule = rest ∧
      (s.trigMode = false → t.cursor = 0#9 ∧ t.fg = .idle) ∧
      (s.trigMode = true → t.cursor = 400#9 ∧ t.fg = .trigWait)

/-! ## The sampling controller -/

/-- R120: START in `Idle`. The ghosts of the converter are the model's record of the call (R196). -/
def Obligations.StartResult : Prop :=
  ∀ s : State, s.fg = .idle →
    exec .start s = .next { s with
      enabled := true, paused := false, cursor := 0#9
      out := s.out ++ [.call .armAutoTrigger, .tx 0x58#8, .tx 0x01#8, .tx 0x00#8]
      adcAuto := true, adcTail := false }

/-- R121: STOP in `Idle`, enabled or not. -/
def Obligations.StopResult : Prop :=
  ∀ s : State, s.fg = .idle →
    (s.enabled = true → exec .stop s = .next { s with
      paused := true
      out := s.out ++ [.call .disableAutoRetrigger, .tx 0x58#8, .tx 0x01#8, .tx 0x01#8]
      adcAuto := false, adcTail := s.adcAuto || s.adcTail }) ∧
    (s.enabled = false → exec .stop s = .next { s with
      paused := false
      out := s.out ++ [.call .disableAutoRetrigger, .tx 0x58#8, .tx 0x00#8, .tx 0x00#8]
      adcAuto := false, adcTail := s.adcAuto || s.adcTail })

/-- R122, R154: `S` in `Idle` flips `ENABLED`, then does STOP or START. -/
def Obligations.ToggleResult : Prop :=
  ∀ s : State, s.fg = .idle →
    (s.enabled = true → exec .s s = .next { s with
      enabled := false, paused := false
      out := s.out ++ [.call .disableAutoRetrigger, .tx 0x58#8, .tx 0x00#8, .tx 0x00#8]
      adcAuto := false, adcTail := s.adcAuto || s.adcTail }) ∧
    (s.enabled = false → exec .s s = .next { s with
      enabled := true, paused := false, cursor := 0#9
      out := s.out ++ [.call .armAutoTrigger, .tx 0x58#8, .tx 0x01#8, .tx 0x00#8]
      adcAuto := true, adcTail := false })

/-- The document's test property on `toggle()` (R122, R129): two `S` commands return `ENABLED` to its first value, and
each sends exactly one status frame with the new state. -/
def Obligations.TwoTogglesRestoreEnabled : Prop :=
  ∀ s : State, s.fg = .idle →
    ∃ t u, exec .s s = .next t ∧ exec .s t = .next u ∧ u.enabled = s.enabled ∧ t.enabled = !s.enabled ∧
      t.txlog = s.txlog ++ [0x58#8, zext8 t.enabled, zext8 t.paused] ∧
      u.txlog = t.txlog ++ [0x58#8, zext8 u.enabled, zext8 u.paused] ∧ t.paused = false ∧ u.paused = false

/-- R131: STOP followed by START resets the cursor whatever it was; STOP alone does not write it. -/
def Obligations.StopThenStartResetsCursor : Prop :=
  ∀ s : State, s.fg = .idle → ∃ t u, exec .stop s = .next t ∧ t.cursor = s.cursor ∧ exec .start t = .next u ∧
    u.cursor = 0#9 ∧ u.enabled = true ∧ u.paused = false

/-- R123: ARMTRIG in `Idle` writes the two registers. That it sends no frame is decision D18. -/
def Obligations.ArmTrigResult : Prop :=
  ∀ (level : Byte) (s : State), s.fg = .idle → exec (.armTrig level) s = .next { s with trigMode := true, trigLvl := level }

/-- R125: one poll reads a value of the latch: the one the environment has put there, or, when nothing has filled the
latch since reset, a free value of which nothing is known (U5). At or above the level (unsigned) the wait ends and
the cursor is reset; below it nothing changes. No frame is sent. A free read moves the model's count of draws. -/
def Obligations.TrigPollResult : Prop :=
  ∀ s : State, s.fg = .trigWait → ∃ (v : Byte) (n : Nat),
    (∀ w, s.latch = .holds w → v = w ∧ n = s.draws) ∧
    (s.trigLvl.toNat ≤ v.toNat → exec .trigPoll s = .next { s with cursor := 0#9, fg := .idle, draws := n }) ∧
    (v.toNat < s.trigLvl.toNat → exec .trigPoll s = .next { s with draws := n })

/-- R126, R127, R220: while the latch holds a value below the level, no sequence of moves other than a reset or a latch
change ends the trigger wait: no byte is read, no request served, nothing sent, no sample stored. -/
def Obligations.TriggerWaitLastsWhileLatchIsBelow : Prop :=
  ∀ (ms : List Move) (v : Byte) (s : State), (∀ m ∈ ms, leavesTriggerAlone m = true) →
    s.fg = .trigWait → s.latch = .holds v → v.toNat < s.trigLvl.toNat → s.cursor = 400#9 → s.pausedWhileDisabled = false →
    ∃ t, runMoves ms s = .next t ∧ t.fg = .trigWait ∧ t.out = s.out ∧ t.buf = s.buf ∧ t.cursor = 400#9 ∧
      s.rxq <+: t.rxq ∧ s.localq <+: t.localq ∧ t.trigLvl = s.trigLvl ∧ t.latch = s.latch

/-- R26: ARMTRIG sets `TRIGMODE`; no move but a reset clears it, and a reset does; each emission reads it to decide
whether the trigger wait follows. -/
def Obligations.TriggerModeStaysOn : Prop :=
  (∀ (level : Byte) (s : State), s.fg = .idle → ∃ t, exec (.armTrig level) s = .next t ∧ t.trigMode = true) ∧
    (∀ (m : Move) (s t : State), isReset m = false → s.trigMode = true → stepMove m s = .next t → t.trigMode = true) ∧
    (∀ (keepRx keepLocal : Bool) (s t : State), stepMove (.reset keepRx keepLocal) s = .next t → t.trigMode = false) ∧
    (∀ s t : State, exec .emit s = .next t → (t.fg = .trigWait ↔ s.trigMode = true))

/-- R228: under the spec's fairness assumption (D25), a trigger wait during which the latch is at or above the level from
some moment on ends. -/
def Obligations.FairTriggerWaitEnds : Prop :=
  ∀ (moves : Nat → Move) (run : Nat → State) (n : Nat), Execution moves run → Fair moves run →
    (∀ m, n ≤ m → ∃ v, (run m).latch = .holds v ∧ (run m).trigLvl.toNat ≤ v.toNat) →
    (run n).fg = .trigWait → ∃ m, n ≤ m ∧ (run m).fg = .idle

/-! ## The configuration store -/

/-- R140: a channel 0 to 5 is stored and told to the converter with the whole triple; any other is dropped (R181). That
no frame is sent is decision D18; the cause tag is D17. -/
def Obligations.SetChanResult : Prop :=
  ∀ (ch : Byte) (s : State), s.fg = .idle →
    (ch.toNat ≤ 5 → ∃ c : ChannelWord, c.toNat = ch.toNat ∧ exec (.setChan ch) s = .next { s with
      chan := c, out := s.out ++ [.call (.configure c s.dividx s.intref .channel)] }) ∧
    (5 < ch.toNat → exec (.setChan ch) s = .next s)

/-- R142: SETREF always succeeds. That no frame is sent is decision D18; the cause tag is D17. -/
def Obligations.SetRefResult : Prop :=
  ∀ (useInternal : Bool) (s : State), s.fg = .idle →
    exec (.setRef useInternal) s = .next { s with
      intref := useInternal, out := s.out ++ [.call (.configure s.chan s.dividx useInternal .reference)] }

/-- R141, R153: in `WaitParam` an index inside the table is stored, told to the converter and answered with the settings
frame of the new index; any other only ends the wait (R181). The cause tag is D17; the ghosts follow R144. -/
def Obligations.ParameterByteResult : Prop :=
  ∀ (idx : Byte) (s : State), s.fg = .waitParam →
    (∀ e, s.params.table[idx.toNat]? = some e → exec (.param idx) s = .next { s with
      dividx := idx, fg := .idle
      out := s.out ++ [.call (.configure s.chan idx s.intref .divider),
        .tx 0x53#8, .tx idx, .tx (rateInt e), .tx (rateCenti e)]
      adcAuto := true, adcTail := false }) ∧
    (s.params.entries ≤ idx.toNat → exec (.param idx) s = .next { s with fg := .idle })

/-- R34, R88, R90: the rate bytes of a valid table entry are the integer part and the truncated hundredths of the exact
rational rate: the rate lies at or above the value they give and less than one hundredth above it. -/
def Obligations.RateBytesTruncateTheRate : Prop :=
  ∀ e : RateEntry, e.valid = true →
    (rateCenti e).toNat ≤ 99 ∧
    (100 * (rateInt e).toNat + (rateCenti e).toNat) * e.den ≤ 100 * e.num ∧
    100 * e.num < (100 * (rateInt e).toNat + (rateCenti e).toNat + 1) * e.den

/-- R143: at every step the operands of the last Configure call in `PLOG`, or the reset values if there has been none, are
the three registers. -/
def Obligations.MirrorRuleKeptByEveryStep : Prop :=
  ∀ s t : State, s.mirrorHolds → step s = .next t → t.mirrorHolds

/-- The document's test properties for the divider (R147), on the wire: `P idx` and then `R`, each served in turn. An index
inside the table is answered twice with the same settings frame; an index outside leaves the settings and sends
nothing for `P`. -/
def Obligations.SetDividerThenQuery : Prop :=
  ∀ (idx : Byte) (a b c : FgAction) (rest : List Move) (s : State), s.fg = .idle → s.rxq = [0x50#8, idx, 0x52#8] →
    s.localq = [] → s.collectible = false → s.pausedWhileDisabled = false →
    s.schedule = .foreground a :: .foreground b :: .foreground c :: rest →
    ∃ t, runSteps 3 s = .next t ∧ t.fg = .idle ∧ t.rxq = [] ∧ t.schedule = rest ∧
      (∀ e, s.params.table[idx.toNat]? = some e → t.dividx = idx ∧
        t.txlog = s.txlog ++ [0x53#8, idx, rateInt e, rateCenti e, 0x53#8, idx, rateInt e, rateCenti e]) ∧
      (s.params.entries ≤ idx.toNat → t.dividx = s.dividx ∧ t.plog = s.plog ∧ t.txlog = s.txlog ++ s.settingsFrame)

/-- R217: the byte after `P` is its parameter, so `50 53` sets or rejects index 83 and does not toggle. -/
def Obligations.ByteAfterPIsSwallowed : Prop :=
  ∀ (a b : FgAction) (rest : List Move) (s : State), s.fg = .idle → s.rxq = [0x50#8, 0x53#8] →
    s.localq = [] → s.collectible = false → s.pausedWhileDisabled = false →
    s.schedule = .foreground a :: .foreground b :: rest →
    ∃ t, runSteps 2 s = .next t ∧ t.fg = .idle ∧ t.rxq = [] ∧ t.enabled = s.enabled ∧ t.paused = s.paused ∧
      t.dividx = (if 83 < s.params.entries then 83#8 else s.dividx) ∧
      (¬ 83 < s.params.entries → t.out = s.out)

/-- R219, R144: an accepted parameter byte leaves the converter's auto-trigger on and the flags as they were, so that in the
state enabled and paused the next event is stored all the same. -/
def Obligations.AcceptedDividerResumesWhilePaused : Prop :=
  ∀ (idx v : Byte) (s : State), s.fg = .waitParam → idx.toNat < s.params.entries → s.enabled = true → s.paused = true →
    s.cursor.toNat < 400 → ∃ t u, exec (.param idx) s = .next t ∧ t.adcAuto = true ∧ t.paused = true ∧
      converterAllows t (.convert v) = true ∧ exec (.adcDone v) t = .next u ∧ Memory.read u.buf s.cursor.toNat = some v ∧
      u.cursor.toNat = s.cursor.toNat + 1 ∧ u.paused = true

/-! ## The frame protocol and the foreground loop -/

/-- R152: the first byte of `P` only starts the parameter wait; then the parameter step is enabled at once if a byte is
there, and no other action is. -/
def Obligations.FirstByteOfPResult : Prop :=
  decode (.opcode 0x50#8) = .ok .p ∧
    ∀ s : State, s.fg = .idle → exec .p s = .next { s with fg := .waitParam } ∧
      State.enabledActions { s with fg := .waitParam } = if s.rxq = [] then [] else [.param]

/-- R155, R88: `R` sends the settings frame of the index in force and changes nothing. With an index outside the table,
which no reachable state has (R29), it sends a frame all the same, whose last two bytes are free (log entry 6). -/
def Obligations.QueryResult : Prop :=
  ∀ s : State, s.fg = .idle → ∃ r c : Byte,
    exec .r s = .next { s with out := s.out ++ [.tx 0x53#8, .tx s.dividx, .tx r, .tx c] } ∧
    ∀ e, s.params.table[s.dividx.toNat]? = some e → r = rateInt e ∧ c = rateCenti e

/-- R84, R182: an ignored byte has no effect; taken by the command step, any byte but the three opcodes is consumed and
nothing else happens. -/
def Obligations.IgnoreResult : Prop :=
  (∀ (b : Byte) (s : State), s.fg = .idle → exec (.ignore b) s = .next s) ∧
    ∀ (prefer : FgAction) (b : Byte) (q : List Byte) (s : State), s.pausedWhileDisabled = false →
      s.chooseAction prefer = some .cmd → s.rxq = b :: q → b ≠ 0x50#8 → b ≠ 0x52#8 → b ≠ 0x53#8 →
      stepMove (.foreground prefer) s = .next { s with rxq := q }

/-- R158, R87: with every cell written, EMIT in `Idle` with `ENABLED = 1` and `CURSOR = 400` sends `FF AA`, the 400 cells
with cell 0 first, `55 EE`, 404 bytes in all; then the cursor is 0, or with trigger mode on the wait begins and the
cursor stays (R124). `PAUSED` does not matter. Nothing else changes. -/
def Obligations.EmitResult : Prop :=
  ∀ s : State, s.fg = .idle → s.enabled = true → s.cursor = 400#9 →
    (∀ k, k < 400 → ∃ b, Memory.read s.buf k = some b) →
    ∃ (d : List Byte) (t : State), exec .emit s = .next t ∧ d.length = 400 ∧
      (∀ k (h : k < d.length), Memory.read s.buf k = some d[k]) ∧
      t.out = s.out ++ ([0xFF#8, 0xAA#8] ++ d ++ [0x55#8, 0xEE#8]).map .tx ∧
      (s.trigMode = true → { t with out := s.out } = { s with fg := .trigWait }) ∧
      (s.trigMode = false → { t with out := s.out } = { s with cursor := 0#9 })

/-- U4: where a cell has never been written, EMIT stops with the first such cell. No reachable state is like this (R54). -/
def Obligations.EmitFaultsOnUnwrittenCell : Prop :=
  ∀ (k : Nat) (s : State), s.fg = .idle → s.enabled = true → s.cursor = 400#9 → k < 400 →
    Memory.read s.buf k = none → (∀ j, j < k → ∃ b, Memory.read s.buf j = some b) →
    exec .emit s = .fault (.unwrittenCell k)

/-- R158: exactly one frame is sent per full buffer. After EMIT the emission is not enabled, and no sequence of moves with
fewer than 400 conversions in it leads to a state in which it is. -/
def Obligations.OneFramePerFullBuffer : Prop :=
  ∀ (ms : List Move) (s t u : State), exec .emit s = .next t → (ms.filter isConvert).length < 400 →
    runMoves ms t = .next u → u.emitEnabled = false

/-- R87 to R89, R91: where the registers hold the frame's fields and the foreground is where the frame can be sent, the
frame rows put the whole frame on `TXLOG` and change nothing else (log entry 7). -/
def Obligations.FrameRowsSendTheirFrame : Prop :=
  (∀ (e p : Bool) (s : State), s.fg = .idle → s.enabled = e → s.paused = p →
    exec (.txStatus e p) s = .next { s with out := s.out ++ [.tx 0x58#8, .tx (zext8 e), .tx (zext8 p)] }) ∧
  (∀ (i : Byte) (e : RateEntry) (s : State), s.fg ≠ .trigWait → s.dividx = i → s.params.table[i.toNat]? = some e →
    exec (.txSettings i (rateInt e) (rateCenti e)) s =
      .next { s with out := s.out ++ [.tx 0x53#8, .tx i, .tx (rateInt e), .tx (rateCenti e)] }) ∧
  (∀ (d : List Byte) (s : State), s.fg = .idle → s.enabled = true → s.cursor = 400#9 → d.length = 400 →
    (∀ k (h : k < d.length), Memory.read s.buf k = some d[k]) →
    exec (.txData d) s =
      .next { s with out := s.out ++ ([0xFF#8, 0xAA#8] ++ d ++ [0x55#8, 0xEE#8]).map .tx })

/-- R160, R129: what each instruction adds to `TXLOG`, for every instruction. The clauses for the frame rows `txData`,
`txSettings` and `txStatus` are the model's reading of those rows as instructions (log entry 7); in a run their frames are
sent by the other operations alone. -/
def Obligations.WhichInstructionSendsWhat : Prop :=
  ∀ (i : Instr) (s t : State), exec i s = .next t →
    match i with
    | .s | .start | .stop => t.txlog = s.txlog ++ statusBytes t.enabled t.paused
    | .r => t.txlog = s.txlog ++ t.settingsFrame
    | .param idx => t.txlog = s.txlog ++ (if idx.toNat < s.params.entries then t.settingsFrame else [])
    | .emit => ∃ d, s.readBuffer = .ok d ∧ t.txlog = s.txlog ++ dataBytes d
    | .txData d => t.txlog = s.txlog ++ dataBytes d
    | .txSettings idx r c => t.txlog = s.txlog ++ settingsBytes idx r c
    | .txStatus e p => t.txlog = s.txlog ++ statusBytes e p
    | .p | .ignore _ | .armTrig _ | .setChan _ | .setRef _ | .adcDone _ | .trigPoll => t.txlog = s.txlog

/-- R91, R160, R65: at every step other than a reset `TXLOG` grows by nothing or by one whole frame of the register values
after the step; a data frame only from a full, enabled buffer in `Idle`. -/
def Obligations.EveryStepSendsWholeFrames : Prop :=
  ∀ (m : Move) (s t : State), isReset m = false → stepMove m s = .next t →
    ∃ f, t.txlog = s.txlog ++ f ∧
      (f = [] ∨ f = t.statusFrame ∨ f = t.settingsFrame ∨
        ∃ d, s.readBuffer = .ok d ∧ f = dataBytes d ∧ s.fg = .idle ∧ s.enabled = true ∧ s.cursor = 400#9)

/-- R162, R189: the transition table of `FG`, with the condition of each row that moves it. Events and the environment's
moves other than a reset never change it. -/
def Obligations.SequencerTransitions : Prop :=
  ∀ (m : Move) (s t : State), stepMove m s = .next t →
    (isReset m = true → t.fg = .idle) ∧
    (isReset m = false → t.fg = s.fg ∨ (∃ prefer, m = .foreground prefer) ∧
      ((s.fg = .idle ∧ t.fg = .waitParam ∧ s.rxq = 0x50#8 :: t.rxq) ∨
       (s.fg = .idle ∧ t.fg = .trigWait ∧ s.enabled = true ∧ s.cursor = 400#9 ∧ s.trigMode = true ∧ t.cursor = 400#9) ∨
       (s.fg = .waitParam ∧ t.fg = .idle ∧ ∃ idx, s.rxq = idx :: t.rxq) ∨
       (s.fg = .trigWait ∧ t.fg = .idle ∧ t.cursor = 0#9 ∧ (∀ w, s.latch = .holds w → s.trigLvl.toNat ≤ w.toNat))))

/-- R23, R191: the cursor is incremented only by a conversion that is stored, and otherwise only set to 0, which only the
foreground does. -/
def Obligations.CursorWriters : Prop :=
  ∀ (m : Move) (s t : State), isReset m = false → stepMove m s = .next t →
    t.cursor = s.cursor ∨
      (∃ v, m = .convert v ∧ s.enabled = true ∧ s.cursor.toNat < 400 ∧ t.cursor.toNat = s.cursor.toNat + 1) ∨
      (∃ prefer, m = .foreground prefer ∧ t.cursor = 0#9)

/-- R51, R191: no move but a conversion or a reset writes a cell of `BUF`, and a conversion writes no cell but the one at
the cursor. -/
def Obligations.BufferWriters : Prop :=
  ∀ (m : Move) (s t : State), isReset m = false → stepMove m s = .next t →
    ∀ k, Memory.read t.buf k ≠ Memory.read s.buf k →
      ∃ v, m = .convert v ∧ k = s.cursor.toNat ∧ k < 400 ∧ s.enabled = true ∧ Memory.read t.buf k = some v

/-- R34, R9 to R11: nothing writes the rate table or a parameter. -/
def Obligations.ParametersAreReadOnly : Prop :=
  ∀ s t : State, step s = .next t → t.params = s.params

/-- R191, R24 to R30: which agent may write which register. A conversion and the environment's moves write no register of
the block but `BUF` and `CURSOR`. R35, R65, R157: a delivered byte goes to the end of the receive queue, a posted request
to the end of the pending ones, a latch move puts its value in the latch, and each of the three does nothing else. -/
def Obligations.OnlyTheForegroundWritesFlags : Prop :=
  (∀ (m : Move) (s t : State), isReset m = false → (∀ prefer, m ≠ .foreground prefer) → stepMove m s = .next t →
    t.enabled = s.enabled ∧ t.paused = s.paused ∧ t.trigMode = s.trigMode ∧ t.trigLvl = s.trigLvl ∧
      t.dividx = s.dividx ∧ t.chan = s.chan ∧ t.intref = s.intref ∧ t.fg = s.fg ∧ t.out = s.out) ∧
  ∀ s : State, s.pausedWhileDisabled = false →
    (∀ b, stepMove (.deliver b) s = .next { s with rxq := s.rxq ++ [b] }) ∧
    (∀ lop arg, stepMove (.post lop arg) s = .next { s with localq := s.localq ++ [⟨lop, arg⟩] }) ∧
    (∀ v, stepMove (.setLatch v) s = .next { s with latch := .holds v })

/-- R163, R164: while no byte comes, no sequence of moves other than a reset ends the parameter wait: nothing is sent, no
request served; the handler goes on storing. -/
def Obligations.ParameterWaitLastsWithoutAByte : Prop :=
  ∀ (ms : List Move) (s : State), (∀ m ∈ ms, leavesStreamAlone m = true) → s.fg = .waitParam → s.rxq = [] →
    s.pausedWhileDisabled = false →
    ∃ t, runMoves ms s = .next t ∧ t.fg = .waitParam ∧ t.rxq = [] ∧ t.out = s.out ∧ s.localq <+: t.localq ∧
      t.enabled = s.enabled ∧ s.cursor.toNat ≤ t.cursor.toNat

/-- R150, R157, R158: in which states an instruction is not one the sequencer takes (R15: a step's precondition holds when
it is taken). That `exec` answers a refusal exactly there is the model's (log entry 12), and so are the preconditions of
the frame rows (log entry 7). -/
def Obligations.NotEnabledExactlyOutsidePreconditions : Prop :=
  ∀ (i : Instr) (s : State), exec i s = .refused .notEnabled ↔
    match i with
    | .p | .s | .r | .ignore _ | .start | .stop | .armTrig _ | .setChan _ | .setRef _ | .txStatus _ _ => s.fg ≠ .idle
    | .param _ => s.fg ≠ .waitParam
    | .trigPoll => s.fg ≠ .trigWait
    | .txSettings _ _ _ => s.fg = .trigWait
    | .emit | .txData _ => ¬(s.fg = .idle ∧ s.enabled = true ∧ s.cursor = 400#9)
    | .adcDone _ => False

/-- R94, R157: a request with an unassigned code is taken from the port and has no effect. -/
def Obligations.UnassignedRequestIsDiscarded : Prop :=
  ∀ (prefer : FgAction) (lop : Lop) (arg : Byte) (q : List LocalRequest) (s : State), lop ∉ [0x0#4, 0x1#4, 0x3#4, 0x4#4, 0x6#4] →
    s.fg = .idle → s.rxq = [] → s.collectible = false → s.pausedWhileDisabled = false → s.localq = ⟨lop, arg⟩ :: q →
    stepMove (.foreground prefer) s = .next { s with localq := q }

/-- R222, R150 (D3): with `FG_ORDER = any`, a full buffer and a waiting `S`, both orders are possible: the frame goes out
first, or the toggle comes first and the buffer can no longer be emitted. Under `emit_first` only the first is, under
`cmd_first` only the second. -/
def Obligations.ToggleMeetsFullBuffer : Prop :=
  ∀ (q : List Byte) (d : List Byte) (s : State), s.fg = .idle → s.enabled = true → s.cursor = 400#9 →
    s.trigMode = false → s.readBuffer = .ok d → s.rxq = 0x53#8 :: q →
    (s.params.fgOrder ≠ .cmdFirst → ∃ t, stepMove (.foreground .emit) s = .next t ∧
      t.txlog = s.txlog ++ dataBytes d ∧ t.rxq = s.rxq ∧ t.cursor = 0#9) ∧
    (s.params.fgOrder ≠ .emitFirst → ∃ t, stepMove (.foreground .cmd) s = .next t ∧
      t.txlog = s.txlog ++ [0x58#8, 0x00#8, 0x00#8] ∧ t.rxq = q ∧ .emit ∉ t.enabledActions) ∧
    (s.params.fgOrder = .emitFirst → ∀ prefer, stepMove (.foreground prefer) s = stepMove (.foreground .emit) s) ∧
    (s.params.fgOrder = .cmdFirst → ∀ prefer, stepMove (.foreground prefer) s = stepMove (.foreground .cmd) s)

/-- R229: in a quiescent state the foreground does nothing. -/
def Obligations.QuiescentForegroundDoesNothing : Prop :=
  ∀ (prefer : FgAction) (s : State), s.quiescent → s.pausedWhileDisabled = false → stepMove (.foreground prefer) s = .next s

/-! ## The two contexts -/

/-- R60, R188: a handler run before `P`, `R`, STOP, an ignored byte, ARMTRIG, SETCHAN, SETREF or a parameter byte gives the
same next state as a handler run after it. -/
def Obligations.HandlerCommutesWithForeground : Prop :=
  ∀ (v : Byte) (i : Instr) (s t u : State),
    (i = .p ∨ i = .r ∨ i = .stop ∨ (∃ b, i = .ignore b) ∨ (∃ l, i = .armTrig l) ∨ (∃ c, i = .setChan c) ∨
      (∃ r, i = .setRef r) ∨ (∃ x, i = .param x)) →
    exec i s = .next t → exec (.adcDone v) s = .next u →
    ∃ w, exec (.adcDone v) t = .next w ∧ exec i u = .next w

/-- R60 (c): a handler run inside START, between `ENABLED <- 1` and the rest, shows in nothing but one cell at or beyond
the new cursor. -/
def Obligations.HandlerInsideStartIsInvisible : Prop :=
  ∀ (v : Byte) (s t : State), s.fg = .idle → exec (.adcDone v) { s with enabled := true } = .next t →
    ∃ w, exec .start s = .next w ∧ { t.resume with buf := w.buf } = w ∧
      ∀ k, k ≠ s.cursor.toNat → Memory.read t.resume.buf k = Memory.read w.buf k

/-- R25, R158: `PAUSED` is read only by the status frame: outside the operations that send one or write it, two states that
differ in `PAUSED` alone have outcomes that differ in it alone. -/
def Obligations.PausedIsReadOnlyByTheStatusFrame : Prop :=
  ∀ (i : Instr) (p : Bool) (s t : State), i ≠ .stop → (∀ e q, i ≠ .txStatus e q) → i ≠ .start → i ≠ .s →
    exec i s = .next t → exec i { s with paused := p } = .next { t with paused := p }

/-! ## The whole machine -/

/-- R15, R150: when the event, the bytes, or the request at hand decode to an instruction, the step is its meaning in the
state from which the move, and the byte or request, have been taken. One clause for each way an instruction is selected,
and one for a foreground with nothing to do. -/
def Obligations.StepRunsTheDecodedInstruction : Prop :=
  ∀ (rest : List Move) (s : State), s.pausedWhileDisabled = false →
    (∀ v i, s.schedule = .convert v :: rest → decode (.event v) = .ok i →
      step s = exec i { s with schedule := rest, adcTail := s.adcAuto && s.adcTail }) ∧
    (∀ prefer b q i, s.schedule = .foreground prefer :: rest → s.chooseAction prefer = some .cmd → s.rxq = b :: q →
      decode (.opcode b) = .ok i → step s = exec i { s with schedule := rest, rxq := q }) ∧
    (∀ prefer b q i, s.schedule = .foreground prefer :: rest → s.chooseAction prefer = some .param → s.rxq = b :: q →
      decode (.parameter b) = .ok i → step s = exec i { s with schedule := rest, rxq := q }) ∧
    (∀ prefer lop arg q i, s.schedule = .foreground prefer :: rest → s.chooseAction prefer = some .loc →
      s.localq = ⟨lop, arg⟩ :: q → decode (.request lop arg) = .ok i →
      step s = exec i { s with schedule := rest, localq := q }) ∧
    (∀ prefer i, s.schedule = .foreground prefer :: rest → s.chooseAction prefer = some .emit →
      decode (.action .emit) = .ok i → step s = exec i { s with schedule := rest }) ∧
    (∀ prefer i, s.schedule = .foreground prefer :: rest → s.chooseAction prefer = some .poll →
      decode (.action .trigPoll) = .ok i → step s = exec i { s with schedule := rest }) ∧
    (∀ prefer, s.schedule = .foreground prefer :: rest → s.chooseAction prefer = none →
      step s = .next { s with schedule := rest })

/-- R150: the sequencer takes only enabled actions, takes one whenever one is enabled, and with `FG_ORDER = any` takes the
one the move names if it is enabled, so that each of the enabled actions can be the next one. -/
def Obligations.SequencerChoosesAmongEnabledActions : Prop :=
  ∀ s : State,
    (∀ prefer a, s.chooseAction prefer = some a → a ∈ s.enabledActions) ∧
    (∀ prefer, s.chooseAction prefer = none ↔ s.enabledActions = []) ∧
    (s.params.fgOrder = .any → ∀ a ∈ s.enabledActions, s.chooseAction a = some a) ∧
    (s.params.fgOrder = .emitFirst → .emit ∈ s.enabledActions → ∀ prefer, s.chooseAction prefer = some .emit) ∧
    (s.params.fgOrder = .cmdFirst → .cmd ∈ s.enabledActions → ∀ prefer, s.chooseAction prefer = some .cmd) ∧
    (s.params.fgOrder = .cmdFirst → .cmd ∉ s.enabledActions → .loc ∈ s.enabledActions →
      ∀ prefer, s.chooseAction prefer = some .loc)

/-- A word that the table decodes to an instruction other than a frame is the very next thing a step runs (log entry 7). -/
def Obligations.PlacedWordRunsNext : Prop :=
  ∀ (nbits w : Nat) (i : Instr) (s : State), decodeTableWord nbits w = some i →
    (∀ d, i ≠ .txData d) → (∀ x r c, i ≠ .txSettings x r c) → (∀ e p, i ≠ .txStatus e p) →
    ∃ t, fetch (s.withFetchWord nbits w) = .run i t ∧ step (s.withFetchWord nbits w) = exec i t ∧
      t.schedule = s.schedule ∧ t.fg = .idle ∧ t.buf = s.buf ∧ t.out = s.out

/-- R15: stepping through a schedule is running its moves one after another: any interleaving of the agents is a run of the
machine. The schedule is the model's own field (log entry 2). -/
def Obligations.ScheduleRealisesAnyInterleaving : Prop :=
  ∀ (ms rest : List Move) (s : State),
    runSteps ms.length { s with schedule := ms ++ rest } = runMoves ms { s with schedule := rest }

/-- U3: in the state `ENABLED = 0, PAUSED = 1` every move but a reset is refused. -/
def Obligations.PausedWhileDisabledIsRefused : Prop :=
  ∀ (m : Move) (s : State), s.enabled = false → s.paused = true → isReset m = false →
    stepMove m s = .refused .pausedWhileDisabled

/-- R37: every step keeps the invariant. -/
def Obligations.InvariantKeptByEveryStep : Prop :=
  ∀ s t : State, StateInv s → step s = .next t → StateInv t

/-- R54, R229: from a state that meets the invariant no step stops, whichever agent moves: no fault and no refusal is ever
met, and the invariant goes on holding. -/
def Obligations.StepNeverStops : Prop :=
  ∀ s : State, StateInv s → (∃ t, step s = .next t) ∧ ∀ m, ∃ t, stepMove m s = .next t ∧ StateInv t

/-- R230, R228: what the block owes the host, under the spec's fairness assumption (D25), in an execution that from moment
`n` on has no reset and returns to `Idle` again and again. Every byte in the receive queue is read in its turn: as a
command in `Idle`, where `R` is answered with one settings frame and `S` with one status frame, or as a parameter, which
is answered with one settings frame when it is accepted. A full buffer that stays collectible until its emission is sent
as one data frame. -/
def Obligations.FairRunsSendWhatIsOwed : Prop :=
  ∀ (moves : Nat → Move) (run : Nat → State) (n : Nat), Execution moves run → Fair moves run →
    (∀ m, n ≤ m → isReset (moves m) = false) → (∀ k, n ≤ k → ∃ m, k ≤ m ∧ (run m).fg = .idle) →
    (∀ (before : List Byte) (b : Byte) (behind : List Byte), (run n).rxq = before ++ b :: behind →
      ∃ (m : Nat) (later : List Byte), n ≤ m ∧ (run m).rxq = b :: (behind ++ later) ∧
        (run (m + 1)).rxq = behind ++ later ∧
        ((run m).fg = .idle ∧
            (b = 0x52#8 → (run (m + 1)).txlog = (run m).txlog ++ (run (m + 1)).settingsFrame) ∧
            (b = 0x53#8 → (run (m + 1)).txlog = (run m).txlog ++ (run (m + 1)).statusFrame) ∨
          (run m).fg = .waitParam ∧
            (b.toNat < (run m).params.entries → (run (m + 1)).dividx = b ∧
              (run (m + 1)).txlog = (run m).txlog ++ (run (m + 1)).settingsFrame))) ∧
    ((∀ m, n ≤ m → (∀ k, n ≤ k → k < m → actionTaken (moves k) (run k) ≠ some .emit) → (run m).collectible = true) →
      ∃ (m : Nat) (d : List Byte), n ≤ m ∧ (run m).fg = .idle ∧ (run m).collectible = true ∧
        (run m).readBuffer = .ok d ∧ (run (m + 1)).txlog = (run m).txlog ++ dataBytes d)
end

