-- ==== Sys2Proof/Laws/Encoding.lean ====
section
/-! SUPPORT. What the decoders do, part by part. -/

namespace Sys2Proof

@[simp] theorem decodeFlag_zext8 (flag : Bool) : decodeFlag (zext8 flag) = some flag := by cases flag <;> decide

@[simp] theorem zext8_bit (flag : Bool) : (zext8 flag).getLsbD 0 = flag := by cases flag <;> decide

theorem decodeFlag_eq_some {b : Byte} {flag : Bool} (h : decodeFlag b = some flag) : b = zext8 flag := by
  unfold decodeFlag at h
  split at h
  · cases h; assumption
  · split at h
    · cases h; assumption
    · cases h

theorem isOpcode_iff (b : Byte) : isOpcode b = true ↔ b = 0x50#8 ∨ b = 0x53#8 ∨ b = 0x52#8 := by
  simp only [isOpcode, Bool.or_eq_true, beq_iff_eq]; tauto

theorem decodeOpcode_ignore {b : Byte} (h : isOpcode b = false) : decodeOpcode b = .ignore b := by
  have h' : ¬(b = 0x50#8 ∨ b = 0x53#8 ∨ b = 0x52#8) := by rw [← isOpcode_iff, h]; simp
  simp only [not_or] at h'
  simp [decodeOpcode, h'.1, h'.2.1, h'.2.2]

/-- What a byte in opcode position decodes to is well-formed, and the byte is its code. -/
theorem decodeOpcode_sound (b : Byte) : WellFormed (decodeOpcode b) = true ∧ encode (decodeOpcode b) = .opcode b := by
  unfold decodeOpcode
  split
  · subst_vars; exact ⟨rfl, rfl⟩
  · split
    · subst_vars; exact ⟨rfl, rfl⟩
    · split
      · subst_vars; exact ⟨rfl, rfl⟩
      · refine ⟨?_, rfl⟩
        simp only [WellFormed, Bool.not_eq_true', ← Bool.not_eq_true, isOpcode_iff]
        tauto

/-- A frame of more than four bytes can only be a data frame. -/
theorem decodeFrame_long (a b : Byte) {rest : List Byte} (h : 2 < rest.length) :
    decodeFrame (a :: b :: rest) =
      if a = 0xFF#8 ∧ b = 0xAA#8 ∧ WellFormed (.txData (rest.take capacity)) ∧ rest.drop capacity = [0x55#8, 0xEE#8]
      then .ok (.txData (rest.take capacity)) else .error .notAFrame := by
  match rest, h with
  | x :: y :: z :: tail, _ => rfl

theorem decodeFrame_short {a b : Byte} {rest : List Byte} (h : rest.length = 0) :
    decodeFrame (a :: b :: rest) = .error .notAFrame := by
  obtain rfl := List.length_eq_zero_iff.mp h
  simp [decodeFrame, WellFormed, capacity]

theorem decodeFrame_data {d : List Byte} (h : d.length = 400) : decodeFrame (dataBytes d) = .ok (.txData d) := by
  have e : dataBytes d = 0xFF#8 :: 0xAA#8 :: (d ++ [0x55#8, 0xEE#8]) := rfl
  have ht : (d ++ [0x55#8, 0xEE#8]).take capacity = d := by
    rw [show capacity = d.length from h.symm]; simp
  have hd : (d ++ [0x55#8, 0xEE#8]).drop capacity = [0x55#8, 0xEE#8] := by
    rw [show capacity = d.length from h.symm]; simp
  rw [e, decodeFrame_long _ _ (by simp [h]), ht, hd]
  simp [WellFormed, h, capacity]

end Sys2Proof
end

