-- ==== Sys2Proof/Laws/Memory.lean ====
section
/-! SUPPORT. What the sample buffer's operations do: read after write, the canonical form, the sequential read. -/

namespace Sys2Proof.Machine

/-- Strictly rising addresses. -/
abbrev Memory.rising (m : Memory) : Prop := m.Pairwise fun x y => x.1 < y.1

theorem Memory.read_write_same (m : Memory) (a : Nat) (b : Byte) : Memory.read (Memory.write m a b) a = some b := by
  induction m with
  | nil => simp [Memory.write, Memory.read]
  | cons c rest ih =>
    obtain ⟨k, v⟩ := c
    simp only [Memory.write]
    split
    · simp [Memory.read]
    · split
      · simp [Memory.read]
      · rename_i hne
        simp [Memory.read, Ne.symm hne, ih]

theorem Memory.read_write_ne (m : Memory) {a a' : Nat} (b : Byte) (h : a' ≠ a) :
    Memory.read (Memory.write m a b) a' = Memory.read m a' := by
  induction m with
  | nil => simp [Memory.write, Memory.read, Ne.symm h]
  | cons c rest ih =>
    obtain ⟨k, v⟩ := c
    simp only [Memory.write]
    split
    · simp [Memory.read, Ne.symm h]
    · split
      · rename_i heq; subst heq
        simp [Memory.read, Ne.symm h]
      · simp only [Memory.read, ih]

/-- Every address a write lists was listed before or is the one written. -/
theorem Memory.mem_write {m : Memory} {a : Nat} {b : Byte} {c : Host.Cell} (h : c ∈ Memory.write m a b) :
    c ∈ m ∨ c = (a, b) := by
  induction m with
  | nil => simpa [Memory.write] using h
  | cons d rest ih =>
    obtain ⟨k, v⟩ := d
    simp only [Memory.write] at h
    split at h
    · simp only [List.mem_cons] at h ⊢; tauto
    · split at h
      · simp only [List.mem_cons] at h ⊢; tauto
      · simp only [List.mem_cons] at h ⊢
        rcases h with h | h
        · exact .inl (.inl h)
        · rcases ih h with h | h <;> tauto

theorem Memory.rising_write {m : Memory} (a : Nat) (b : Byte) (h : Memory.rising m) :
    Memory.rising (Memory.write m a b) := by
  induction m with
  | nil => simp [Memory.write, Memory.rising]
  | cons d rest ih =>
    obtain ⟨k, v⟩ := d
    have ⟨hk, hrest⟩ := List.pairwise_cons.mp h
    simp only [Memory.write]
    split
    · rename_i hlt
      refine List.pairwise_cons.mpr ⟨fun c hc => ?_, h⟩
      rcases List.mem_cons.mp hc with rfl | hc
      · exact hlt
      · exact Nat.lt_trans hlt (hk c hc)
    · split
      · rename_i heq; subst heq
        exact List.pairwise_cons.mpr ⟨hk, hrest⟩
      · rename_i hlt hne
        refine List.pairwise_cons.mpr ⟨fun c hc => ?_, ih hrest⟩
        rcases Memory.mem_write hc with hc | rfl
        · exact hk c hc
        · show k < a
          omega

theorem Memory.wf_iff (m : Memory) : Memory.wf m = true ↔ Memory.rising m ∧ ∀ c ∈ m, c.1 < 400 := by
  simp only [Memory.wf, Bool.and_eq_true, decide_eq_true_eq, List.all_eq_true]
  exact Iff.rfl

/-- A store inside the buffer keeps the canonical form. -/
theorem Memory.wf_write {m : Memory} {a : Nat} (b : Byte) (h : Memory.wf m = true) (ha : a < 400) :
    Memory.wf (Memory.write m a b) = true := by
  rw [Memory.wf_iff] at h ⊢
  refine ⟨Memory.rising_write a b h.1, fun c hc => ?_⟩
  rcases Memory.mem_write hc with hc | rfl
  · exact h.2 c hc
  · exact ha

@[simp] theorem Memory.wf_nil : Memory.wf [] = true := by decide

/-! ## The sequential read -/

/-- The read of `n` cells answers the bytes `d` exactly when there are `n` of them and each cell holds its byte. -/
theorem Memory.readFrom_ok_iff (m : Memory) (a n : Nat) (d : List Byte) :
    Memory.readFrom m a n = .ok d ↔ d.length = n ∧ ∀ k (h : k < d.length), Memory.read m (a + k) = some d[k] := by
  induction n generalizing a d with
  | zero =>
    constructor
    · intro h
      simp only [Memory.readFrom, Except.ok.injEq] at h
      subst h; simp
    · rintro ⟨h, -⟩
      simp [Memory.readFrom, List.length_eq_zero_iff.mp h]
  | succ n ih =>
    simp only [Memory.readFrom]
    cases hr : Memory.read m a with
    | none =>
      simp only [reduceCtorEq, false_iff, not_and]
      intro hlen hall
      have := hall 0 (by omega)
      simp [hr] at this
    | some b =>
      cases hf : Memory.readFrom m (a + 1) n with
      | error k =>
        simp only [reduceCtorEq, false_iff, not_and]
        intro hlen hall
        have := (ih (a + 1) d.tail).mpr
          ⟨by simp [hlen], fun k hk => by
            simp only [List.length_tail] at hk
            have h1 := hall (k + 1) (by omega)
            rw [show a + 1 + k = a + (k + 1) by omega, h1]
            simp⟩
        simp [hf] at this
      | ok bs =>
        obtain ⟨hl, hc⟩ := (ih (a + 1) bs).mp hf
        simp only [Except.ok.injEq]
        constructor
        · rintro rfl
          refine ⟨by simp [hl], fun k hk => ?_⟩
          cases k with
          | zero => simpa using hr
          | succ k =>
            simp only [List.length_cons] at hk
            have := hc k (by omega)
            rw [show a + (k + 1) = a + 1 + k by omega, this]
            simp
        · rintro ⟨hlen, hall⟩
          cases d with
          | nil => simp at hlen
          | cons x rest =>
            simp only [List.length_cons] at hlen
            have h0 := hall 0 (by simp)
            simp only [Nat.add_zero, hr, List.getElem_cons_zero, Option.some.injEq] at h0
            subst h0
            congr 1
            apply List.ext_getElem (by omega)
            intro k h1 h2
            have h3 := hc k h1
            have h4 := hall (k + 1) (by simp; omega)
            rw [show a + (k + 1) = a + 1 + k by omega, h3] at h4
            simpa using h4

/-- The read stops at a cell exactly when that is the first of the `n` that holds nothing. -/
theorem Memory.readFrom_error_iff (m : Memory) (a n k : Nat) :
    Memory.readFrom m a n = .error k ↔
      a ≤ k ∧ k < a + n ∧ Memory.read m k = none ∧ ∀ j, a ≤ j → j < k → Memory.read m j ≠ none := by
  induction n generalizing a with
  | zero => simp [Memory.readFrom]; omega
  | succ n ih =>
    simp only [Memory.readFrom]
    cases hr : Memory.read m a with
    | none =>
      simp only [Except.error.injEq]
      constructor
      · rintro rfl
        exact ⟨Nat.le_refl _, by omega, hr, fun j h1 h2 => by omega⟩
      · rintro ⟨h1, h2, h3, h4⟩
        by_contra hne
        exact h4 a (Nat.le_refl _) (by omega) hr
    | some b =>
      have key : Memory.readFrom m (a + 1) n = .error k ↔
          a ≤ k ∧ k < a + (n + 1) ∧ Memory.read m k = none ∧ ∀ j, a ≤ j → j < k → Memory.read m j ≠ none := by
        rw [ih]
        constructor
        · rintro ⟨h1, h2, h3, h4⟩
          refine ⟨by omega, by omega, h3, fun j hj hk => ?_⟩
          by_cases hja : j = a
          · subst hja; simp [hr]
          · exact h4 j (by omega) hk
        · rintro ⟨h1, h2, h3, h4⟩
          have : k ≠ a := by rintro rfl; simp [hr] at h3
          exact ⟨by omega, by omega, h3, fun j hj hk => h4 j (by omega) hk⟩
      rw [← key]
      cases Memory.readFrom m (a + 1) n with
      | error j => simp
      | ok bs => simp

/-- The read succeeds when every cell has been written. -/
theorem Memory.readFrom_of_written (m : Memory) (a n : Nat) (h : ∀ k, a ≤ k → k < a + n → ∃ b, Memory.read m k = some b) :
    ∃ d, Memory.readFrom m a n = .ok d := by
  cases hr : Memory.readFrom m a n with
  | ok d => exact ⟨d, rfl⟩
  | error k =>
    obtain ⟨h1, h2, h3, -⟩ := (Memory.readFrom_error_iff m a n k).mp hr
    obtain ⟨b, hb⟩ := h k h1 h2
    simp [h3] at hb

/-- Storing at the cell after the ones read extends the read by that byte. -/
theorem Memory.readFrom_write_next {m : Memory} {n : Nat} {d : List Byte} (b : Byte)
    (h : Memory.readFrom m 0 n = .ok d) : Memory.readFrom (Memory.write m n b) 0 (n + 1) = .ok (d ++ [b]) := by
  obtain ⟨hl, hc⟩ := (Memory.readFrom_ok_iff m 0 n d).mp h
  refine (Memory.readFrom_ok_iff _ _ _ _).mpr ⟨by simp [hl], fun k hk => ?_⟩
  simp only [List.length_append, List.length_cons, List.length_nil] at hk
  by_cases hkn : k = n
  · subst hkn
    rw [Nat.zero_add, Memory.read_write_same]
    simp [hl]
  · rw [Nat.zero_add, Memory.read_write_ne m b hkn]
    have := hc k (by omega)
    rw [Nat.zero_add] at this
    rw [this, List.getElem_append_left (by omega)]

end Sys2Proof.Machine
end

