-- ==== Sys2Proof/Laws/State.lean ====
section
/-! SUPPORT. One lemma per field and update, so that no proof unfolds a record update, and what the updates do to the two
output traces. -/

namespace Sys2Proof.Machine

variable (s : State)

/-! ## Updates of one thing -/

/-! `tx` -/
@[simp] theorem State.tx_params (bytes : List Byte) : (s.tx bytes).params = s.params := rfl
@[simp] theorem State.tx_buf (bytes : List Byte) : (s.tx bytes).buf = s.buf := rfl
@[simp] theorem State.tx_cursor (bytes : List Byte) : (s.tx bytes).cursor = s.cursor := rfl
@[simp] theorem State.tx_enabled (bytes : List Byte) : (s.tx bytes).enabled = s.enabled := rfl
@[simp] theorem State.tx_paused (bytes : List Byte) : (s.tx bytes).paused = s.paused := rfl
@[simp] theorem State.tx_trigMode (bytes : List Byte) : (s.tx bytes).trigMode = s.trigMode := rfl
@[simp] theorem State.tx_trigLvl (bytes : List Byte) : (s.tx bytes).trigLvl = s.trigLvl := rfl
@[simp] theorem State.tx_dividx (bytes : List Byte) : (s.tx bytes).dividx = s.dividx := rfl
@[simp] theorem State.tx_chan (bytes : List Byte) : (s.tx bytes).chan = s.chan := rfl
@[simp] theorem State.tx_intref (bytes : List Byte) : (s.tx bytes).intref = s.intref := rfl
@[simp] theorem State.tx_fg (bytes : List Byte) : (s.tx bytes).fg = s.fg := rfl
@[simp] theorem State.tx_rxq (bytes : List Byte) : (s.tx bytes).rxq = s.rxq := rfl
@[simp] theorem State.tx_localq (bytes : List Byte) : (s.tx bytes).localq = s.localq := rfl
@[simp] theorem State.tx_latch (bytes : List Byte) : (s.tx bytes).latch = s.latch := rfl
@[simp] theorem State.tx_adcAuto (bytes : List Byte) : (s.tx bytes).adcAuto = s.adcAuto := rfl
@[simp] theorem State.tx_adcTail (bytes : List Byte) : (s.tx bytes).adcTail = s.adcTail := rfl
@[simp] theorem State.tx_out (bytes : List Byte) : (s.tx bytes).out = s.out ++ bytes.map .tx := rfl
@[simp] theorem State.tx_schedule (bytes : List Byte) : (s.tx bytes).schedule = s.schedule := rfl
@[simp] theorem State.tx_draws (bytes : List Byte) : (s.tx bytes).draws = s.draws := rfl

/-! `converterTold` -/
@[simp] theorem State.converterTold_params (c : PeriphCall) : (s.converterTold c).params = s.params := by unfold State.converterTold; split <;> rfl
@[simp] theorem State.converterTold_buf (c : PeriphCall) : (s.converterTold c).buf = s.buf := by unfold State.converterTold; split <;> rfl
@[simp] theorem State.converterTold_cursor (c : PeriphCall) : (s.converterTold c).cursor = s.cursor := by unfold State.converterTold; split <;> rfl
@[simp] theorem State.converterTold_enabled (c : PeriphCall) : (s.converterTold c).enabled = s.enabled := by unfold State.converterTold; split <;> rfl
@[simp] theorem State.converterTold_paused (c : PeriphCall) : (s.converterTold c).paused = s.paused := by unfold State.converterTold; split <;> rfl
@[simp] theorem State.converterTold_trigMode (c : PeriphCall) : (s.converterTold c).trigMode = s.trigMode := by unfold State.converterTold; split <;> rfl
@[simp] theorem State.converterTold_trigLvl (c : PeriphCall) : (s.converterTold c).trigLvl = s.trigLvl := by unfold State.converterTold; split <;> rfl
@[simp] theorem State.converterTold_dividx (c : PeriphCall) : (s.converterTold c).dividx = s.dividx := by unfold State.converterTold; split <;> rfl
@[simp] theorem State.converterTold_chan (c : PeriphCall) : (s.converterTold c).chan = s.chan := by unfold State.converterTold; split <;> rfl
@[simp] theorem State.converterTold_intref (c : PeriphCall) : (s.converterTold c).intref = s.intref := by unfold State.converterTold; split <;> rfl
@[simp] theorem State.converterTold_fg (c : PeriphCall) : (s.converterTold c).fg = s.fg := by unfold State.converterTold; split <;> rfl
@[simp] theorem State.converterTold_rxq (c : PeriphCall) : (s.converterTold c).rxq = s.rxq := by unfold State.converterTold; split <;> rfl
@[simp] theorem State.converterTold_localq (c : PeriphCall) : (s.converterTold c).localq = s.localq := by unfold State.converterTold; split <;> rfl
@[simp] theorem State.converterTold_latch (c : PeriphCall) : (s.converterTold c).latch = s.latch := by unfold State.converterTold; split <;> rfl
@[simp] theorem State.converterTold_out (c : PeriphCall) : (s.converterTold c).out = s.out := by unfold State.converterTold; split <;> rfl
@[simp] theorem State.converterTold_schedule (c : PeriphCall) : (s.converterTold c).schedule = s.schedule := by unfold State.converterTold; split <;> rfl
@[simp] theorem State.converterTold_draws (c : PeriphCall) : (s.converterTold c).draws = s.draws := by unfold State.converterTold; split <;> rfl

/-! `periph` -/
@[simp] theorem State.periph_params (c : PeriphCall) : (s.periph c).params = s.params := by simp [State.periph]
@[simp] theorem State.periph_buf (c : PeriphCall) : (s.periph c).buf = s.buf := by simp [State.periph]
@[simp] theorem State.periph_cursor (c : PeriphCall) : (s.periph c).cursor = s.cursor := by simp [State.periph]
@[simp] theorem State.periph_enabled (c : PeriphCall) : (s.periph c).enabled = s.enabled := by simp [State.periph]
@[simp] theorem State.periph_paused (c : PeriphCall) : (s.periph c).paused = s.paused := by simp [State.periph]
@[simp] theorem State.periph_trigMode (c : PeriphCall) : (s.periph c).trigMode = s.trigMode := by simp [State.periph]
@[simp] theorem State.periph_trigLvl (c : PeriphCall) : (s.periph c).trigLvl = s.trigLvl := by simp [State.periph]
@[simp] theorem State.periph_dividx (c : PeriphCall) : (s.periph c).dividx = s.dividx := by simp [State.periph]
@[simp] theorem State.periph_chan (c : PeriphCall) : (s.periph c).chan = s.chan := by simp [State.periph]
@[simp] theorem State.periph_intref (c : PeriphCall) : (s.periph c).intref = s.intref := by simp [State.periph]
@[simp] theorem State.periph_fg (c : PeriphCall) : (s.periph c).fg = s.fg := by simp [State.periph]
@[simp] theorem State.periph_rxq (c : PeriphCall) : (s.periph c).rxq = s.rxq := by simp [State.periph]
@[simp] theorem State.periph_localq (c : PeriphCall) : (s.periph c).localq = s.localq := by simp [State.periph]
@[simp] theorem State.periph_latch (c : PeriphCall) : (s.periph c).latch = s.latch := by simp [State.periph]
@[simp] theorem State.periph_adcAuto (c : PeriphCall) : (s.periph c).adcAuto = (s.converterTold c).adcAuto := rfl
@[simp] theorem State.periph_adcTail (c : PeriphCall) : (s.periph c).adcTail = (s.converterTold c).adcTail := rfl
@[simp] theorem State.periph_out (c : PeriphCall) : (s.periph c).out = s.out ++ [.call c] := rfl
@[simp] theorem State.periph_schedule (c : PeriphCall) : (s.periph c).schedule = s.schedule := by simp [State.periph]
@[simp] theorem State.periph_draws (c : PeriphCall) : (s.periph c).draws = s.draws := by simp [State.periph]

/-! `storeSample` -/
@[simp] theorem State.storeSample_params (v : Byte) : (s.storeSample v).params = s.params := rfl
@[simp] theorem State.storeSample_buf (v : Byte) : (s.storeSample v).buf = Memory.write s.buf s.cursor.toNat v := rfl
@[simp] theorem State.storeSample_cursor (v : Byte) : (s.storeSample v).cursor = s.cursor + 1#9 := rfl
@[simp] theorem State.storeSample_enabled (v : Byte) : (s.storeSample v).enabled = s.enabled := rfl
@[simp] theorem State.storeSample_paused (v : Byte) : (s.storeSample v).paused = s.paused := rfl
@[simp] theorem State.storeSample_trigMode (v : Byte) : (s.storeSample v).trigMode = s.trigMode := rfl
@[simp] theorem State.storeSample_trigLvl (v : Byte) : (s.storeSample v).trigLvl = s.trigLvl := rfl
@[simp] theorem State.storeSample_dividx (v : Byte) : (s.storeSample v).dividx = s.dividx := rfl
@[simp] theorem State.storeSample_chan (v : Byte) : (s.storeSample v).chan = s.chan := rfl
@[simp] theorem State.storeSample_intref (v : Byte) : (s.storeSample v).intref = s.intref := rfl
@[simp] theorem State.storeSample_fg (v : Byte) : (s.storeSample v).fg = s.fg := rfl
@[simp] theorem State.storeSample_rxq (v : Byte) : (s.storeSample v).rxq = s.rxq := rfl
@[simp] theorem State.storeSample_localq (v : Byte) : (s.storeSample v).localq = s.localq := rfl
@[simp] theorem State.storeSample_latch (v : Byte) : (s.storeSample v).latch = s.latch := rfl
@[simp] theorem State.storeSample_adcAuto (v : Byte) : (s.storeSample v).adcAuto = s.adcAuto := rfl
@[simp] theorem State.storeSample_adcTail (v : Byte) : (s.storeSample v).adcTail = s.adcTail := rfl
@[simp] theorem State.storeSample_out (v : Byte) : (s.storeSample v).out = s.out := rfl
@[simp] theorem State.storeSample_schedule (v : Byte) : (s.storeSample v).schedule = s.schedule := rfl
@[simp] theorem State.storeSample_draws (v : Byte) : (s.storeSample v).draws = s.draws := rfl

/-! `resetCursor` -/
@[simp] theorem State.resetCursor_params : (s.resetCursor).params = s.params := rfl
@[simp] theorem State.resetCursor_buf : (s.resetCursor).buf = s.buf := rfl
@[simp] theorem State.resetCursor_cursor : (s.resetCursor).cursor = 0#9 := rfl
@[simp] theorem State.resetCursor_enabled : (s.resetCursor).enabled = s.enabled := rfl
@[simp] theorem State.resetCursor_paused : (s.resetCursor).paused = s.paused := rfl
@[simp] theorem State.resetCursor_trigMode : (s.resetCursor).trigMode = s.trigMode := rfl
@[simp] theorem State.resetCursor_trigLvl : (s.resetCursor).trigLvl = s.trigLvl := rfl
@[simp] theorem State.resetCursor_dividx : (s.resetCursor).dividx = s.dividx := rfl
@[simp] theorem State.resetCursor_chan : (s.resetCursor).chan = s.chan := rfl
@[simp] theorem State.resetCursor_intref : (s.resetCursor).intref = s.intref := rfl
@[simp] theorem State.resetCursor_fg : (s.resetCursor).fg = s.fg := rfl
@[simp] theorem State.resetCursor_rxq : (s.resetCursor).rxq = s.rxq := rfl
@[simp] theorem State.resetCursor_localq : (s.resetCursor).localq = s.localq := rfl
@[simp] theorem State.resetCursor_latch : (s.resetCursor).latch = s.latch := rfl
@[simp] theorem State.resetCursor_adcAuto : (s.resetCursor).adcAuto = s.adcAuto := rfl
@[simp] theorem State.resetCursor_adcTail : (s.resetCursor).adcTail = s.adcTail := rfl
@[simp] theorem State.resetCursor_out : (s.resetCursor).out = s.out := rfl
@[simp] theorem State.resetCursor_schedule : (s.resetCursor).schedule = s.schedule := rfl
@[simp] theorem State.resetCursor_draws : (s.resetCursor).draws = s.draws := rfl

/-! `enterHandler` -/
@[simp] theorem State.enterHandler_params : (s.enterHandler).params = s.params := rfl
@[simp] theorem State.enterHandler_buf : (s.enterHandler).buf = s.buf := rfl
@[simp] theorem State.enterHandler_cursor : (s.enterHandler).cursor = s.cursor := rfl
@[simp] theorem State.enterHandler_enabled : (s.enterHandler).enabled = s.enabled := rfl
@[simp] theorem State.enterHandler_paused : (s.enterHandler).paused = s.paused := rfl
@[simp] theorem State.enterHandler_trigMode : (s.enterHandler).trigMode = s.trigMode := rfl
@[simp] theorem State.enterHandler_trigLvl : (s.enterHandler).trigLvl = s.trigLvl := rfl
@[simp] theorem State.enterHandler_dividx : (s.enterHandler).dividx = s.dividx := rfl
@[simp] theorem State.enterHandler_chan : (s.enterHandler).chan = s.chan := rfl
@[simp] theorem State.enterHandler_intref : (s.enterHandler).intref = s.intref := rfl
@[simp] theorem State.enterHandler_fg : (s.enterHandler).fg = s.fg := rfl
@[simp] theorem State.enterHandler_rxq : (s.enterHandler).rxq = s.rxq := rfl
@[simp] theorem State.enterHandler_localq : (s.enterHandler).localq = s.localq := rfl
@[simp] theorem State.enterHandler_latch : (s.enterHandler).latch = s.latch := rfl
@[simp] theorem State.enterHandler_adcAuto : (s.enterHandler).adcAuto = s.adcAuto := rfl
@[simp] theorem State.enterHandler_adcTail : (s.enterHandler).adcTail = (s.adcAuto && s.adcTail) := rfl
@[simp] theorem State.enterHandler_out : (s.enterHandler).out = s.out := rfl
@[simp] theorem State.enterHandler_schedule : (s.enterHandler).schedule = s.schedule := rfl
@[simp] theorem State.enterHandler_draws : (s.enterHandler).draws = s.draws := rfl

/-! ## Operations that change nothing, and the frames as transmissions -/

@[simp] theorem State.drop_eq (c : ErrorClass) : s.drop c = s := rfl
@[simp] theorem State.leaveHandler_eq : s.leaveHandler = s := rfl
theorem State.sendStatus_eq : s.sendStatus = s.tx (statusBytes s.enabled s.paused) := rfl
theorem State.sendSettings_eq :
    s.sendSettings = s.tx (settingsBytes s.dividx (rateBytes s.params s.dividx).1 (rateBytes s.params s.dividx).2) := rfl
theorem State.sendData_eq (d : List Byte) : s.sendData d = s.tx (dataBytes d) := rfl
theorem State.configure_eq (cause : Cause) :
    s.configure cause = s.periph (.configure s.chan s.dividx s.intref cause) := rfl

/-! ## The output traces -/

@[simp] theorem txOf_append (a b : List Output) : txOf (a ++ b) = txOf a ++ txOf b := by
  induction a with
  | nil => rfl
  | cons o rest ih => cases o <;> simp [txOf, ih]

@[simp] theorem callsOf_append (a b : List Output) : callsOf (a ++ b) = callsOf a ++ callsOf b := by
  induction a with
  | nil => rfl
  | cons o rest ih => cases o <;> simp [callsOf, ih]

@[simp] theorem txOf_map_tx (bytes : List Byte) : txOf (bytes.map .tx) = bytes := by
  induction bytes with
  | nil => rfl
  | cons b rest ih => simp [txOf, ih]

@[simp] theorem callsOf_map_tx (bytes : List Byte) : callsOf (bytes.map .tx) = [] := by
  induction bytes with
  | nil => rfl
  | cons b rest ih => simp [callsOf, ih]

@[simp] theorem State.txlog_tx (bytes : List Byte) : (s.tx bytes).txlog = s.txlog ++ bytes := by
  simp [State.txlog]

@[simp] theorem State.plog_tx (bytes : List Byte) : (s.tx bytes).plog = s.plog := by
  simp [State.plog]

@[simp] theorem State.txlog_periph (c : PeriphCall) : (s.periph c).txlog = s.txlog := by
  simp [State.txlog, txOf]

@[simp] theorem State.plog_periph (c : PeriphCall) : (s.periph c).plog = s.plog ++ [c] := by
  simp [State.plog, callsOf]

end Sys2Proof.Machine
end

