-- ==== Sys2Proof/Laws/Operations.lean ====
section
/-! SUPPORT. Once for each shared operation and each meaning: everything it can do. -/

namespace Sys2Proof.Machine

variable {s t : State}

/-! ## Preconditions -/

@[simp] theorem whenEnabled_eq_next {c : Bool} {r : Host.Outcome State Fault Refusal} :
    whenEnabled c r = .next t ↔ c = true ∧ r = .next t := by
  cases c <;> simp [whenEnabled]

@[simp] theorem whenEnabled_eq_fault {c : Bool} {r : Host.Outcome State Fault Refusal} {f : Fault} :
    whenEnabled c r = .fault f ↔ c = true ∧ r = .fault f := by
  cases c <;> simp [whenEnabled]

theorem whenEnabled_true (r : Host.Outcome State Fault Refusal) : whenEnabled true r = r := rfl

theorem State.emitEnabled_iff : s.emitEnabled = true ↔ s.fg = .idle ∧ s.enabled = true ∧ s.cursor = 400#9 := by
  simp [State.emitEnabled, State.collectible, State.full]

theorem State.accepting_iff : s.accepting = true ↔ s.enabled = true ∧ s.cursor.toNat < 400 := by
  simp [State.accepting, BitVec.lt_def]

theorem State.pausedWhileDisabled_eq_false : s.pausedWhileDisabled = false ↔ (s.paused = true → s.enabled = true) := by
  cases he : s.enabled <;> cases hp : s.paused <;> simp [State.pausedWhileDisabled, he, hp]

/-- The increment of a cursor below 400 does not wrap (R17). -/
theorem cursor_succ {c : CursorWord} (h : c.toNat < 400) : (c + 1#9).toNat = c.toNat + 1 := by
  rw [BitVec.toNat_add, BitVec.toNat_ofNat]; omega

/-! ## The operations whole -/

theorem State.startOp_eq (s : State) : s.startOp = { s with
    enabled := true, paused := false, cursor := 0#9
    out := s.out ++ [.call .armAutoTrigger, .tx 0x58#8, .tx 0x01#8, .tx 0x00#8]
    adcAuto := true, adcTail := false } := by
  simp [State.startOp, State.resume, State.sendStatus, State.statusFrame, statusBytes, zext8, State.tx, State.periph,
    State.converterTold, State.resetCursor]

theorem State.stopOp_eq (s : State) : s.stopOp = { s with
    paused := s.enabled
    out := s.out ++ [.call .disableAutoRetrigger, .tx 0x58#8, .tx (zext8 s.enabled), .tx (zext8 s.enabled)]
    adcAuto := false, adcTail := s.adcAuto || s.adcTail } := by
  simp [State.stopOp, State.sendStatus, State.statusFrame, statusBytes, State.tx, State.periph, State.converterTold,
    pausedByStop]

theorem State.toggleOp_of_enabled (h : s.enabled = true) : s.toggleOp = { s with
    enabled := false, paused := false
    out := s.out ++ [.call .disableAutoRetrigger, .tx 0x58#8, .tx 0x00#8, .tx 0x00#8]
    adcAuto := false, adcTail := s.adcAuto || s.adcTail } := by
  simp [State.toggleOp, toggled, h, State.stopOp_eq, zext8]

theorem State.toggleOp_of_disabled (h : s.enabled = false) : s.toggleOp = { s with
    enabled := true, paused := false, cursor := 0#9
    out := s.out ++ [.call .armAutoTrigger, .tx 0x58#8, .tx 0x01#8, .tx 0x00#8]
    adcAuto := true, adcTail := false } := by
  simp [State.toggleOp, toggled, h, State.startOp_eq]

theorem State.setDiv_accepted {idx : Byte} (h : idx.toNat < s.params.entries) :
    s.setDiv idx = ({ s with
      dividx := idx, out := s.out ++ [.call (.configure s.chan idx s.intref .divider)]
      adcAuto := true, adcTail := false }, true) := by
  simp [State.setDiv, indexAccepted, h, State.configure, State.periph, State.converterTold]

theorem State.setDiv_rejected {idx : Byte} (h : s.params.entries ≤ idx.toNat) : s.setDiv idx = (s, false) := by
  simp [State.setDiv, indexAccepted, Nat.not_lt.mpr h]

theorem rateBytes_of_entry {p : Params} {idx : Byte} {e : RateEntry} (h : p.table[idx.toNat]? = some e) :
    rateBytes p idx = (rateInt e, rateCenti e) := by
  simp [rateBytes, h]

theorem index_of_entry {p : Params} {idx : Byte} {e : RateEntry} (h : p.table[idx.toNat]? = some e) :
    idx.toNat < p.entries := (List.getElem?_eq_some_iff.mp h).1

/-- Reading the latch gives a value and, when it was undetermined, moves the count of draws. -/
theorem State.latchRead_cases (s : State) : ∃ (v : Byte) (n : Nat), s.latchRead = (v, { s with draws := n }) ∧
    ∀ w, s.latch = .holds w → v = w ∧ n = s.draws := by
  unfold State.latchRead
  split
  · rename_i v h
    exact ⟨v, s.draws, rfl, fun w hw => by rw [h] at hw; cases hw; exact ⟨rfl, rfl⟩⟩
  · rename_i h
    exact ⟨_, _, rfl, fun w hw => by rw [h] at hw; cases hw⟩

/-! ## The meanings, one lemma each: when and with what they answer a next state -/

theorem execP_next : execP s = .next t ↔ s.fg = .idle ∧ { s with fg := .waitParam } = t := by
  simp [execP]

theorem execS_next : execS s = .next t ↔ s.fg = .idle ∧ s.toggleOp = t := by
  simp [execS]

theorem execR_next : execR s = .next t ↔ s.fg = .idle ∧ s.sendSettings = t := by
  simp [execR]

theorem execIgnore_next {b : Byte} : execIgnore b s = .next t ↔ s.fg = .idle ∧ s = t := by
  simp [execIgnore]

theorem execStart_next : execStart s = .next t ↔ s.fg = .idle ∧ s.startOp = t := by
  simp [execStart]

theorem execStop_next : execStop s = .next t ↔ s.fg = .idle ∧ s.stopOp = t := by
  simp [execStop]

theorem execArmTrig_next {level : Byte} :
    execArmTrig level s = .next t ↔ s.fg = .idle ∧ { s with trigMode := true, trigLvl := level } = t := by
  simp [execArmTrig]

theorem execSetChan_next {ch : Byte} : execSetChan ch s = .next t ↔ s.fg = .idle ∧
    (if ch.toNat ≤ 5 then { s with
        chan := channelOf ch, out := s.out ++ [.call (.configure (channelOf ch) s.dividx s.intref .channel)] }
      else s) = t := by
  by_cases h : ch.toNat ≤ 5
  · have h' : ch ≤ 5#8 := by simpa [BitVec.le_def] using h
    simp [execSetChan, channelAccepted, h, h', State.configure, State.periph, State.converterTold]
  · have h' : ¬ ch ≤ 5#8 := by simpa [BitVec.le_def] using h
    simp [execSetChan, channelAccepted, h, h']

theorem execSetRef_next {u : Bool} : execSetRef u s = .next t ↔ s.fg = .idle ∧
    { s with intref := u, out := s.out ++ [.call (.configure s.chan s.dividx u .reference)] } = t := by
  simp [execSetRef, State.configure, State.periph, State.converterTold]

theorem execParam_next {idx : Byte} : execParam idx s = .next t ↔ s.fg = .waitParam ∧
    (if idx.toNat < s.params.entries then { s with
        dividx := idx, fg := .idle
        out := s.out ++ [.call (.configure s.chan idx s.intref .divider), .tx 0x53#8, .tx idx,
          .tx (rateBytes s.params idx).1, .tx (rateBytes s.params idx).2]
        adcAuto := true, adcTail := false }
      else { s with fg := .idle }) = t := by
  by_cases h : idx.toNat < s.params.entries
  · simp [execParam, State.setDiv_accepted h, h, State.sendSettings, State.settingsFrame, settingsBytes, State.tx]
  · simp [execParam, State.setDiv_rejected (Nat.not_lt.mp h), h]

theorem execAdcDone_next {v : Byte} : execAdcDone v s = .next t ↔
    (if s.enabled = true ∧ s.cursor.toNat < 400 then s.storeSample v else s) = t := by
  by_cases h : s.accepting = true
  · simp [execAdcDone, h, State.accepting_iff.mp h]
  · have h' := State.accepting_iff.not.mp h
    simp [execAdcDone, h, h']

theorem execTrigPoll_next : execTrigPoll s = .next t ↔ s.fg = .trigWait ∧ ∃ (v : Byte) (n : Nat),
    s.latchRead = (v, { s with draws := n }) ∧
    (if s.trigLvl.toNat ≤ v.toNat then { s with cursor := 0#9, fg := .idle, draws := n } else { s with draws := n }) = t := by
  obtain ⟨v, n, h, -⟩ := s.latchRead_cases
  by_cases hv : s.trigLvl.toNat ≤ v.toNat
  · simp [execTrigPoll, h, triggerReached, BitVec.le_def, hv, State.resetCursor]
  · simp [execTrigPoll, h, triggerReached, BitVec.le_def, hv]

theorem execEmit_next : execEmit s = .next t ↔ (s.fg = .idle ∧ s.enabled = true ∧ s.cursor = 400#9) ∧
    ∃ d, s.readBuffer = .ok d ∧
      (if s.trigMode = true then { s with out := s.out ++ (dataBytes d).map .tx, fg := .trigWait }
        else { s with out := s.out ++ (dataBytes d).map .tx, cursor := 0#9 }) = t := by
  unfold execEmit
  rw [whenEnabled_eq_next, State.emitEnabled_iff]
  refine and_congr_right fun _ => ?_
  cases s.readBuffer with
  | error k => simp
  | ok d =>
    by_cases h : s.trigMode = true
    · simp [h, State.sendData, State.tx]
    · simp [h, State.sendData, State.tx, State.resetCursor]

theorem execTxData_next {d : List Byte} : execTxData d s = .next t ↔
    (s.fg = .idle ∧ s.enabled = true ∧ s.cursor = 400#9) ∧ s.readBuffer = .ok d ∧
      { s with out := s.out ++ (dataBytes d).map .tx } = t := by
  unfold execTxData
  rw [whenEnabled_eq_next, State.emitEnabled_iff]
  refine and_congr_right fun _ => ?_
  cases s.readBuffer with
  | error k => simp
  | ok bytes =>
    by_cases h : d = bytes
    · simp [h, State.sendData, State.tx]
    · simp [h, Ne.symm h]

theorem execTxSettings_next {i r c : Byte} : execTxSettings i r c s = .next t ↔
    s.fg ≠ .trigWait ∧ (i, r, c) = (s.dividx, rateBytes s.params s.dividx) ∧
      { s with out := s.out ++ (settingsBytes i r c).map .tx } = t := by
  unfold execTxSettings
  by_cases h : (i, r, c) = (s.dividx, rateBytes s.params s.dividx)
  · have h1 : i = s.dividx := congrArg Prod.fst h
    have h2 : (r, c) = rateBytes s.params s.dividx := congrArg Prod.snd h
    simp [h1, ← h2, State.sendSettings, State.settingsFrame, State.tx]
  · simp [h]

theorem execTxStatus_next {e p : Bool} : execTxStatus e p s = .next t ↔
    s.fg = .idle ∧ (e, p) = (s.enabled, s.paused) ∧ { s with out := s.out ++ (statusBytes e p).map .tx } = t := by
  unfold execTxStatus
  by_cases h : (e, p) = (s.enabled, s.paused)
  · have h1 : e = s.enabled := congrArg Prod.fst h
    have h2 : p = s.paused := congrArg Prod.snd h
    simp [h1, h2, State.sendStatus, State.statusFrame, State.tx]
  · simp [h]

/-! ## The sequencer -/

theorem State.chooseAction_mem {prefer a : FgAction} (h : s.chooseAction prefer = some a) : a ∈ s.enabledActions := by
  have hsub : ∀ order actions, ∀ b ∈ admitted order actions, b ∈ actions := by
    intro order actions b hb
    unfold admitted at hb
    split at hb
    · exact hb
    · split at hb
      · simp only [List.mem_singleton] at hb; subst hb; assumption
      · split at hb
        · simp only [List.mem_singleton] at hb; subst hb; assumption
        · exact hb
    · split at hb
      · simp only [List.mem_singleton] at hb; subst hb; assumption
      · exact hb
  unfold State.chooseAction at h
  split at h
  · cases h
  · rename_i b hb
    cases h; rw [hb]; simp
  · dsimp only at h
    split at h
    · cases h; rename_i hp; exact hsub _ _ _ hp
    · exact hsub _ _ _ (List.mem_of_mem_head? h)

/-- Where each foreground action is enabled (R150). -/
theorem State.mem_enabledActions {a : FgAction} : a ∈ s.enabledActions ↔
    match a with
    | .cmd => s.fg = .idle ∧ s.rxq ≠ []
    | .param => s.fg = .waitParam ∧ s.rxq ≠ []
    | .loc => s.fg = .idle ∧ s.localq ≠ []
    | .emit => s.fg = .idle ∧ s.enabled = true ∧ s.cursor = 400#9
    | .poll => s.fg = .trigWait := by
  unfold State.enabledActions State.rxAvail
  cases hf : s.fg <;> cases hr : s.rxq <;> cases hl : s.localq <;> cases hc : s.collectible <;> cases a <;>
    simp_all [State.collectible, State.full]

/-- What a move that answers a next state has done: one case for each way. -/
inductive MoveCase (m : Move) (s t : State) : Prop where
  | reset (keepRx keepLocal : Bool) (hm : m = .reset keepRx keepLocal) (ht : t = s.restart keepRx keepLocal)
  | convert (v : Byte) (hm : m = .convert v) (h : exec (.adcDone v) s.enterHandler = .next t)
  | deliver (b : Byte) (hm : m = .deliver b) (ht : t = { s with rxq := s.rxq ++ [b] })
  | setLatch (v : Byte) (hm : m = .setLatch v) (ht : t = { s with latch := .holds v })
  | post (lop : Lop) (arg : Byte) (hm : m = .post lop arg) (ht : t = { s with localq := s.localq ++ [⟨lop, arg⟩] })
  | polling (prefer : FgAction) (hm : m = .foreground prefer) (hn : s.enabledActions = []) (ht : t = s)
  | command (prefer : FgAction) (b : Byte) (q : List Byte) (hm : m = .foreground prefer) (hf : s.fg = .idle)
      (hq : s.rxq = b :: q) (h : exec (decodeOpcode b) { s with rxq := q } = .next t)
  | parameter (prefer : FgAction) (b : Byte) (q : List Byte) (hm : m = .foreground prefer) (hf : s.fg = .waitParam)
      (hq : s.rxq = b :: q) (h : exec (.param b) { s with rxq := q } = .next t)
  | request (prefer : FgAction) (r : LocalRequest) (q : List LocalRequest) (i : Instr) (hm : m = .foreground prefer)
      (hf : s.fg = .idle) (hq : s.localq = r :: q) (hi : decodeRequest r.lop r.arg = .ok i)
      (h : exec i { s with localq := q } = .next t)
  | discard (prefer : FgAction) (r : LocalRequest) (q : List LocalRequest) (hm : m = .foreground prefer)
      (hf : s.fg = .idle) (hq : s.localq = r :: q) (ht : t = { s with localq := q })
  | emission (prefer : FgAction) (hm : m = .foreground prefer) (h : exec .emit s = .next t)
  | poll (prefer : FgAction) (hm : m = .foreground prefer) (h : exec .trigPoll s = .next t)

theorem State.chooseAction_none {prefer : FgAction} (h : s.chooseAction prefer = none) : s.enabledActions = [] := by
  unfold State.chooseAction at h
  split at h
  · assumption
  · cases h
  · rename_i hne _
    dsimp only at h
    split at h
    · cases h
    · exfalso
      have : admitted s.params.fgOrder s.enabledActions ≠ [] := by
        unfold admitted
        split
        · exact hne
        · split
          · simp
          · split
            · simp
            · exact hne
        · split
          · simp
          · exact hne
      exact this (List.head?_eq_none_iff.mp h)

theorem stepMove_cases {m : Move} (h : stepMove m s = .next t) : MoveCase m s t := by
  unfold stepMove State.fetchMove at h
  split at h
  · cases h
  · cases m with
    | reset a b => cases h; exact .reset a b rfl rfl
    | convert v => exact .convert v rfl h
    | deliver b => cases h; exact .deliver b rfl rfl
    | setLatch v => cases h; exact .setLatch v rfl rfl
    | post lop arg => cases h; exact .post lop arg rfl rfl
    | foreground prefer =>
      simp only [State.perform] at h
      cases hc : s.chooseAction prefer with
      | none => rw [hc] at h; cases h; exact .polling prefer rfl (State.chooseAction_none hc) rfl
      | some a =>
        rw [hc] at h
        have hmem := State.mem_enabledActions.mp (State.chooseAction_mem hc)
        cases a with
        | cmd =>
          obtain ⟨hf, hq⟩ := hmem
          obtain ⟨b, q, hq⟩ := List.exists_cons_of_ne_nil hq
          simp only [State.takeAction, State.rxRead, hq] at h
          exact .command prefer b q rfl hf hq h
        | param =>
          obtain ⟨hf, hq⟩ := hmem
          obtain ⟨b, q, hq⟩ := List.exists_cons_of_ne_nil hq
          simp only [State.takeAction, State.rxRead, hq] at h
          exact .parameter prefer b q rfl hf hq h
        | loc =>
          obtain ⟨hf, hq⟩ := hmem
          obtain ⟨r, q, hq⟩ := List.exists_cons_of_ne_nil hq
          simp only [State.takeAction, State.takeRequest, hq] at h
          cases hi : decodeRequest r.lop r.arg with
          | ok i => rw [hi] at h; exact .request prefer r q i rfl hf hq hi h
          | error e => rw [hi] at h; cases h; exact .discard prefer r q rfl hf hq rfl
        | emit => exact .emission prefer rfl h
        | poll => exact .poll prefer rfl h

/-- Without the refused flag pair, a move does what it fetches. -/
theorem stepMove_eq {m : Move} (h : s.pausedWhileDisabled = false) : stepMove m s = (s.perform m).carryOut := by
  simp [stepMove, State.fetchMove, h]

/-- A step is the next move made in the state without it. -/
theorem step_eq_stepMove (s : State) : step s = stepMove s.nextMove.1 s.nextMove.2 := rfl

theorem step_scheduled {m : Move} {rest : List Move} (h : s.schedule = m :: rest) :
    step s = stepMove m { s with schedule := rest } := by
  rw [step_eq_stepMove, State.nextMove, h]

/-- A local request decodes to one of the five local operations, each under its own code (R94). -/
theorem decodeRequest_cases {lop : Lop} {arg : Byte} {i : Instr} (h : decodeRequest lop arg = .ok i) :
    (lop = 0x0#4 ∧ i = .start) ∨ (lop = 0x1#4 ∧ i = .stop) ∨ (lop = 0x3#4 ∧ i = .armTrig arg) ∨
      (lop = 0x4#4 ∧ i = .setChan arg) ∨ (lop = 0x6#4 ∧ i = .setRef (arg.getLsbD 0)) := by
  unfold decodeRequest at h
  repeat' split at h
  all_goals simp_all

/-- A byte in opcode position decodes to one of the four commands (R98). -/
theorem decodeOpcode_cases (b : Byte) :
    (b = 0x50#8 ∧ decodeOpcode b = .p) ∨ (b = 0x53#8 ∧ decodeOpcode b = .s) ∨ (b = 0x52#8 ∧ decodeOpcode b = .r) ∨
      (isOpcode b = false ∧ decodeOpcode b = .ignore b) := by
  unfold decodeOpcode
  repeat' split
  all_goals simp_all [isOpcode]

end Sys2Proof.Machine
end

