-- ==== Sys2Proof/Laws/Moves.lean ====
section
/-! SUPPORT. Everything a move can do, said once: if it answers a next state, one of these cases holds, each with the next
state written out. Invariants and frames of the whole machine follow by cases. -/

namespace Sys2Proof.Machine

variable {m : Move} {s t : State}

/-- The ways a move takes `s` to `t`. -/
inductive MoveEffect (m : Move) (s t : State) : Prop where
  | reset (keepRx keepLocal : Bool) (hm : m = .reset keepRx keepLocal) (ht : t = s.restart keepRx keepLocal)
  | stored (v : Byte) (hm : m = .convert v) (he : s.enabled = true) (hc : s.cursor.toNat < 400)
      (ht : t = { s with
        buf := Memory.write s.buf s.cursor.toNat v, cursor := s.cursor + 1#9, adcTail := s.adcAuto && s.adcTail })
  | lost (v : Byte) (hm : m = .convert v) (hn : ¬(s.enabled = true ∧ s.cursor.toNat < 400))
      (ht : t = { s with adcTail := s.adcAuto && s.adcTail })
  | deliver (b : Byte) (hm : m = .deliver b) (ht : t = { s with rxq := s.rxq ++ [b] })
  | setLatch (v : Byte) (hm : m = .setLatch v) (ht : t = { s with latch := .holds v })
  | post (lop : Lop) (arg : Byte) (hm : m = .post lop arg) (ht : t = { s with localq := s.localq ++ [⟨lop, arg⟩] })
  | polling (prefer : FgAction) (hm : m = .foreground prefer) (hn : s.enabledActions = []) (ht : t = s)
  | paramAwaited (prefer : FgAction) (q : List Byte) (hm : m = .foreground prefer) (hf : s.fg = .idle)
      (hq : s.rxq = 0x50#8 :: q) (ht : t = { s with rxq := q, fg := .waitParam })
  | toggledOff (prefer : FgAction) (q : List Byte) (hm : m = .foreground prefer) (hf : s.fg = .idle)
      (hq : s.rxq = 0x53#8 :: q) (he : s.enabled = true)
      (ht : t = { s with
        rxq := q, enabled := false, paused := false
        out := s.out ++ [.call .disableAutoRetrigger, .tx 0x58#8, .tx 0x00#8, .tx 0x00#8]
        adcAuto := false, adcTail := s.adcAuto || s.adcTail })
  | toggledOn (prefer : FgAction) (q : List Byte) (hm : m = .foreground prefer) (hf : s.fg = .idle)
      (hq : s.rxq = 0x53#8 :: q) (he : s.enabled = false)
      (ht : t = { s with
        rxq := q, enabled := true, paused := false, cursor := 0#9
        out := s.out ++ [.call .armAutoTrigger, .tx 0x58#8, .tx 0x01#8, .tx 0x00#8]
        adcAuto := true, adcTail := false })
  | queried (prefer : FgAction) (q : List Byte) (hm : m = .foreground prefer) (hf : s.fg = .idle)
      (hq : s.rxq = 0x52#8 :: q) (ht : t = { s with rxq := q, out := s.out ++ s.settingsFrame.map .tx })
  | ignored (prefer : FgAction) (b : Byte) (q : List Byte) (hm : m = .foreground prefer) (hf : s.fg = .idle)
      (hq : s.rxq = b :: q) (hb : isOpcode b = false) (ht : t = { s with rxq := q })
  | dividerSet (prefer : FgAction) (idx : Byte) (q : List Byte) (hm : m = .foreground prefer) (hf : s.fg = .waitParam)
      (hq : s.rxq = idx :: q) (hi : idx.toNat < s.params.entries)
      (ht : t = { s with
        rxq := q, dividx := idx, fg := .idle
        out := s.out ++ [.call (.configure s.chan idx s.intref .divider), .tx 0x53#8, .tx idx,
          .tx (rateBytes s.params idx).1, .tx (rateBytes s.params idx).2]
        adcAuto := true, adcTail := false })
  | dividerRejected (prefer : FgAction) (idx : Byte) (q : List Byte) (hm : m = .foreground prefer)
      (hf : s.fg = .waitParam) (hq : s.rxq = idx :: q) (hi : s.params.entries ≤ idx.toNat)
      (ht : t = { s with rxq := q, fg := .idle })
  | discarded (prefer : FgAction) (r : LocalRequest) (q : List LocalRequest) (hm : m = .foreground prefer)
      (hf : s.fg = .idle) (hq : s.localq = r :: q) (ht : t = { s with localq := q })
  | started (prefer : FgAction) (r : LocalRequest) (q : List LocalRequest) (hm : m = .foreground prefer)
      (hf : s.fg = .idle) (hq : s.localq = r :: q) (hl : r.lop = 0x0#4)
      (ht : t = { s with
        localq := q, enabled := true, paused := false, cursor := 0#9
        out := s.out ++ [.call .armAutoTrigger, .tx 0x58#8, .tx 0x01#8, .tx 0x00#8]
        adcAuto := true, adcTail := false })
  | stopped (prefer : FgAction) (r : LocalRequest) (q : List LocalRequest) (hm : m = .foreground prefer)
      (hf : s.fg = .idle) (hq : s.localq = r :: q) (hl : r.lop = 0x1#4)
      (ht : t = { s with
        localq := q, paused := s.enabled
        out := s.out ++ [.call .disableAutoRetrigger, .tx 0x58#8, .tx (zext8 s.enabled), .tx (zext8 s.enabled)]
        adcAuto := false, adcTail := s.adcAuto || s.adcTail })
  | armed (prefer : FgAction) (r : LocalRequest) (q : List LocalRequest) (hm : m = .foreground prefer)
      (hf : s.fg = .idle) (hq : s.localq = r :: q) (hl : r.lop = 0x3#4)
      (ht : t = { s with localq := q, trigMode := true, trigLvl := r.arg })
  | channelSet (prefer : FgAction) (r : LocalRequest) (q : List LocalRequest) (hm : m = .foreground prefer)
      (hf : s.fg = .idle) (hq : s.localq = r :: q) (hl : r.lop = 0x4#4) (hc : r.arg.toNat ≤ 5)
      (ht : t = { s with
        localq := q, chan := channelOf r.arg
        out := s.out ++ [.call (.configure (channelOf r.arg) s.dividx s.intref .channel)] })
  | referenceSet (prefer : FgAction) (r : LocalRequest) (q : List LocalRequest) (hm : m = .foreground prefer)
      (hf : s.fg = .idle) (hq : s.localq = r :: q) (hl : r.lop = 0x6#4)
      (ht : t = { s with
        localq := q, intref := r.arg.getLsbD 0
        out := s.out ++ [.call (.configure s.chan s.dividx (r.arg.getLsbD 0) .reference)] })
  | emitted (prefer : FgAction) (d : List Byte) (hm : m = .foreground prefer) (hf : s.fg = .idle)
      (he : s.enabled = true) (hc : s.cursor = 400#9) (hd : s.readBuffer = .ok d) (htm : s.trigMode = false)
      (ht : t = { s with out := s.out ++ (dataBytes d).map .tx, cursor := 0#9 })
  | emittedThenWait (prefer : FgAction) (d : List Byte) (hm : m = .foreground prefer) (hf : s.fg = .idle)
      (he : s.enabled = true) (hc : s.cursor = 400#9) (hd : s.readBuffer = .ok d) (htm : s.trigMode = true)
      (ht : t = { s with out := s.out ++ (dataBytes d).map .tx, fg := .trigWait })
  | waitGoesOn (prefer : FgAction) (v : Byte) (n : Nat) (hm : m = .foreground prefer) (hf : s.fg = .trigWait)
      (hr : s.latchRead = (v, { s with draws := n })) (hv : v.toNat < s.trigLvl.toNat) (ht : t = { s with draws := n })
  | waitEnds (prefer : FgAction) (v : Byte) (n : Nat) (hm : m = .foreground prefer) (hf : s.fg = .trigWait)
      (hr : s.latchRead = (v, { s with draws := n })) (hv : s.trigLvl.toNat ≤ v.toNat)
      (ht : t = { s with cursor := 0#9, fg := .idle, draws := n })

theorem stepMove_effect (h : stepMove m s = .next t) : MoveEffect m s t := by
  cases stepMove_cases h with
  | reset a b hm ht => exact .reset a b hm ht
  | convert v hm h =>
    have e := execAdcDone_next.mp h
    by_cases hc : s.enabled = true ∧ s.cursor.toNat < 400
    · exact .stored v hm hc.1 hc.2 (by rw [if_pos (by exact hc)] at e; exact e.symm)
    · exact .lost v hm hc (by rw [if_neg (by exact hc)] at e; exact e.symm)
  | deliver b hm ht => exact .deliver b hm ht
  | setLatch v hm ht => exact .setLatch v hm ht
  | post lop arg hm ht => exact .post lop arg hm ht
  | polling prefer hm hn ht => exact .polling prefer hm hn ht
  | discard prefer r q hm hf hq ht => exact .discarded prefer r q hm hf hq ht
  | command prefer b q hm hf hq h =>
    rcases decodeOpcode_cases b with ⟨hb, hd⟩ | ⟨hb, hd⟩ | ⟨hb, hd⟩ | ⟨hb, hd⟩ <;> rw [hd] at h
    · exact .paramAwaited prefer q hm hf (hb ▸ hq) (execP_next.mp h).2.symm
    · have e := (execS_next.mp h).2
      cases he : s.enabled with
      | true => exact .toggledOff prefer q hm hf (hb ▸ hq) he (by rw [← e, State.toggleOp_of_enabled (by exact he)])
      | false => exact .toggledOn prefer q hm hf (hb ▸ hq) he (by rw [← e, State.toggleOp_of_disabled (by exact he)])
    · exact .queried prefer q hm hf (hb ▸ hq) (execR_next.mp h).2.symm
    · exact .ignored prefer b q hm hf hq hb (execIgnore_next (b := b).mp h).2.symm
  | parameter prefer b q hm hf hq h =>
    have e := (execParam_next.mp h).2
    by_cases hi : b.toNat < s.params.entries
    · exact .dividerSet prefer b q hm hf hq hi (by rw [if_pos (by exact hi)] at e; exact e.symm)
    · exact .dividerRejected prefer b q hm hf hq (Nat.not_lt.mp hi) (by rw [if_neg (by exact hi)] at e; exact e.symm)
  | request prefer r q i hm hf hq hi h =>
    rcases decodeRequest_cases hi with ⟨hl, hd⟩ | ⟨hl, hd⟩ | ⟨hl, hd⟩ | ⟨hl, hd⟩ | ⟨hl, hd⟩ <;> rw [hd] at h
    · exact .started prefer r q hm hf hq hl (by rw [← (execStart_next.mp h).2, State.startOp_eq])
    · exact .stopped prefer r q hm hf hq hl (by rw [← (execStop_next.mp h).2, State.stopOp_eq])
    · exact .armed prefer r q hm hf hq hl (execArmTrig_next.mp h).2.symm
    · have e := (execSetChan_next.mp h).2
      by_cases hc : r.arg.toNat ≤ 5
      · exact .channelSet prefer r q hm hf hq hl hc (by rw [if_pos hc] at e; exact e.symm)
      · exact .discarded prefer r q hm hf hq (by rw [if_neg hc] at e; exact e.symm)
    · exact .referenceSet prefer r q hm hf hq hl (execSetRef_next.mp h).2.symm
  | emission prefer hm h =>
    obtain ⟨⟨hf, he, hc⟩, d, hd, e⟩ := execEmit_next.mp h
    cases htm : s.trigMode with
    | true => exact .emittedThenWait prefer d hm hf he hc hd htm (by rw [if_pos htm] at e; exact e.symm)
    | false => exact .emitted prefer d hm hf he hc hd htm (by rw [if_neg (by simp [htm])] at e; exact e.symm)
  | poll prefer hm h =>
    obtain ⟨hf, v, n, hr, e⟩ := execTrigPoll_next.mp h
    by_cases hv : s.trigLvl.toNat ≤ v.toNat
    · exact .waitEnds prefer v n hm hf hr hv (by rw [if_pos hv] at e; exact e.symm)
    · exact .waitGoesOn prefer v n hm hf hr (Nat.not_le.mp hv) (by rw [if_neg hv] at e; exact e.symm)

end Sys2Proof.Machine
end

