-- ==== Sys2Proof/Laws/PerInstr.lean ====
section
/-! SUPPORT. One lemma per constructor of `Instr`, for the family `RoundTrip`: decoding the code of a well-formed
instruction gives the instruction back. -/

/-- The round trip of one instruction. -/
def Sys2Proof.Laws.RoundTrip.Statement (i : Sys2Proof.Instr) : Prop :=
  Sys2Proof.WellFormed i = true → Sys2Proof.decode (Sys2Proof.encode i) = .ok i

namespace Sys2Proof.Laws

theorem RoundTrip.p : RoundTrip.Statement .p := fun _ => rfl

theorem RoundTrip.param (idx : Byte) : RoundTrip.Statement (.param idx) := fun _ => rfl

theorem RoundTrip.s : RoundTrip.Statement .s := fun _ => rfl

theorem RoundTrip.r : RoundTrip.Statement .r := fun _ => rfl

theorem RoundTrip.ignore (b : Byte) : RoundTrip.Statement (.ignore b) := fun h => by
  have hb : isOpcode b = false := by simpa [WellFormed] using h
  simp [encode, decode, decodeOpcode_ignore hb]

theorem RoundTrip.start : RoundTrip.Statement .start := fun _ => rfl

theorem RoundTrip.stop : RoundTrip.Statement .stop := fun _ => rfl

theorem RoundTrip.armTrig (level : Byte) : RoundTrip.Statement (.armTrig level) := fun _ => rfl

theorem RoundTrip.setChan (ch : Byte) : RoundTrip.Statement (.setChan ch) := fun _ => rfl

theorem RoundTrip.setRef (useInternal : Bool) : RoundTrip.Statement (.setRef useInternal) := fun _ => by
  cases useInternal <;> rfl

theorem RoundTrip.adcDone (sample : Byte) : RoundTrip.Statement (.adcDone sample) := fun _ => rfl

theorem RoundTrip.emit : RoundTrip.Statement .emit := fun _ => rfl

theorem RoundTrip.trigPoll : RoundTrip.Statement .trigPoll := fun _ => rfl

theorem RoundTrip.txData (d : List Byte) : RoundTrip.Statement (.txData d) := fun h => by
  have hd : d.length = 400 := by simpa [WellFormed, capacity] using h
  exact decodeFrame_data hd

theorem RoundTrip.txSettings (i r c : Byte) : RoundTrip.Statement (.txSettings i r c) := fun h => by
  simp [encode, decode, settingsBytes, decodeFrame, h]

theorem RoundTrip.txStatus (e p : Bool) : RoundTrip.Statement (.txStatus e p) := fun h => by
  simp [encode, decode, statusBytes, decodeFrame, h]

end Sys2Proof.Laws
end

