-- ==== Sys2Proof/Laws/Selection.lean ====
section
/-! SUPPORT. Which action a foreground move takes where only one is enabled, and that no move looks at the schedule. -/

namespace Sys2Proof.Machine

variable {s : State}

/-! ## One enabled action -/

theorem State.enabledActions_command {b : Byte} {q : List Byte} (hf : s.fg = .idle) (hq : s.rxq = b :: q)
    (hl : s.localq = []) (hc : s.collectible = false) : s.enabledActions = [.cmd] := by
  simp [State.enabledActions, hf, State.rxAvail, hq, hl, hc]

theorem State.enabledActions_parameter {b : Byte} {q : List Byte} (hf : s.fg = .waitParam) (hq : s.rxq = b :: q) :
    s.enabledActions = [.param] := by
  simp [State.enabledActions, hf, State.rxAvail, hq]

theorem State.enabledActions_request {r : LocalRequest} {q : List LocalRequest} (hf : s.fg = .idle) (hq : s.rxq = [])
    (hl : s.localq = r :: q) (hc : s.collectible = false) : s.enabledActions = [.loc] := by
  simp [State.enabledActions, hf, State.rxAvail, hq, hl, hc]

theorem State.enabledActions_emission (hf : s.fg = .idle) (hq : s.rxq = []) (hl : s.localq = [])
    (hc : s.collectible = true) : s.enabledActions = [.emit] := by
  simp [State.enabledActions, hf, State.rxAvail, hq, hl, hc]

theorem State.enabledActions_poll (hf : s.fg = .trigWait) : s.enabledActions = [.poll] := by
  simp [State.enabledActions, hf]

/-- With one enabled action the foreground takes it, whatever it prefers. -/
theorem stepMove_single {a prefer : FgAction} (hp : s.pausedWhileDisabled = false) (h : s.enabledActions = [a]) :
    stepMove (.foreground prefer) s = (s.takeAction a).carryOut := by
  rw [stepMove_eq hp]
  simp [State.perform, State.chooseAction, h]

theorem stepMove_command {prefer : FgAction} {b : Byte} {q : List Byte} (hp : s.pausedWhileDisabled = false)
    (hf : s.fg = .idle) (hq : s.rxq = b :: q) (hl : s.localq = []) (hc : s.collectible = false) :
    stepMove (.foreground prefer) s = exec (decodeOpcode b) { s with rxq := q } := by
  rw [stepMove_single hp (State.enabledActions_command hf hq hl hc)]
  simp [State.takeAction, State.rxRead, hq, Fetched.carryOut]

theorem stepMove_parameter {prefer : FgAction} {b : Byte} {q : List Byte} (hp : s.pausedWhileDisabled = false)
    (hf : s.fg = .waitParam) (hq : s.rxq = b :: q) :
    stepMove (.foreground prefer) s = exec (.param b) { s with rxq := q } := by
  rw [stepMove_single hp (State.enabledActions_parameter hf hq)]
  simp [State.takeAction, State.rxRead, hq, Fetched.carryOut, decodeParameter]

/-! ## The schedule is not looked at -/

/-- An outcome with another schedule in its state. -/
def reschedule (x : List Move) : Host.Outcome State Fault Refusal → Host.Outcome State Fault Refusal
  | .next t => .next { t with schedule := x }
  | .fault f => .fault f
  | .refused r => .refused r

theorem State.latchRead_schedule (x : List Move) (s : State) :
    { s with schedule := x }.latchRead = (s.latchRead.1, { s.latchRead.2 with schedule := x }) := by
  simp only [State.latchRead]
  split <;> simp_all

theorem exec_schedule (i : Instr) (x : List Move) (s : State) :
    exec i { s with schedule := x } = reschedule x (exec i s) := by
  have hE : ({ s with schedule := x } : State).emitEnabled = s.emitEnabled := rfl
  have hB : ({ s with schedule := x } : State).readBuffer = s.readBuffer := rfl
  cases i with
  | p => simp only [exec, execP, whenEnabled]; split <;> rfl
  | param idx =>
    simp only [exec, execParam, whenEnabled]
    by_cases hi : idx.toNat < s.params.entries
    · rw [State.setDiv_accepted hi, State.setDiv_accepted (by exact hi)]; split <;> rfl
    · rw [State.setDiv_rejected (Nat.not_lt.mp hi), State.setDiv_rejected (by exact Nat.not_lt.mp hi)]; split <;> rfl
  | s =>
    simp only [exec, execS, whenEnabled]
    cases he : s.enabled
    · rw [State.toggleOp_of_disabled he, State.toggleOp_of_disabled (by rfl)]; split <;> rfl
    · rw [State.toggleOp_of_enabled he, State.toggleOp_of_enabled (by rfl)]; split <;> rfl
  | r => simp only [exec, execR, whenEnabled]; split <;> rfl
  | ignore b => simp only [exec, execIgnore, whenEnabled]; split <;> rfl
  | start => simp only [exec, execStart, whenEnabled, State.startOp_eq]; split <;> rfl
  | stop => simp only [exec, execStop, whenEnabled, State.stopOp_eq]; split <;> rfl
  | armTrig l => simp only [exec, execArmTrig, whenEnabled]; split <;> rfl
  | setChan c => simp only [exec, execSetChan, whenEnabled]; split <;> (try split) <;> rfl
  | setRef u => simp only [exec, execSetRef, whenEnabled]; split <;> rfl
  | adcDone v =>
    simp only [exec, execAdcDone]
    cases he : s.accepting <;> cases hn : s.enabled <;> simp_all [State.accepting, reschedule, State.storeSample]
  | emit =>
    simp only [exec, execEmit, hE, hB]
    cases s.emitEnabled
    · rfl
    · cases s.readBuffer with
      | error k => rfl
      | ok d => cases ht : s.trigMode <;> simp [whenEnabled, State.sendData, ht, State.tx, reschedule, State.resetCursor]
  | trigPoll =>
    simp only [exec, execTrigPoll, whenEnabled, State.latchRead_schedule]
    split
    · split <;> rfl
    · rfl
  | txData d =>
    simp only [exec, execTxData, hE, hB]
    cases s.emitEnabled
    · rfl
    · cases s.readBuffer with
      | error k => rfl
      | ok e =>
        by_cases hd : d = e
        · simp [whenEnabled, hd, reschedule]; rfl
        · simp [whenEnabled, hd, reschedule]
  | txSettings a b c => simp only [exec, execTxSettings, whenEnabled]; split <;> (try split) <;> rfl
  | txStatus e p => simp only [exec, execTxStatus, whenEnabled]; split <;> (try split) <;> rfl

theorem stepMove_schedule (m : Move) (x : List Move) (s : State) :
    stepMove m { s with schedule := x } = reschedule x (stepMove m s) := by
  have hp : ({ s with schedule := x } : State).pausedWhileDisabled = s.pausedWhileDisabled := rfl
  unfold stepMove State.fetchMove
  rw [hp]
  split
  · rfl
  · cases m with
    | convert v => exact exec_schedule (.adcDone v) x s.enterHandler
    | deliver b => rfl
    | setLatch v => rfl
    | post l a => rfl
    | reset a b => rfl
    | foreground prefer =>
      have hc : ({ s with schedule := x } : State).chooseAction prefer = s.chooseAction prefer := rfl
      simp only [State.perform, hc]
      cases s.chooseAction prefer with
      | none => rfl
      | some a =>
        cases a with
        | cmd =>
          cases hq : s.rxq with
          | nil => simp [State.takeAction, State.rxRead, hq, Fetched.carryOut, reschedule]
          | cons b q =>
            simp only [State.takeAction, State.rxRead, hq]
            exact exec_schedule (decodeOpcode b) x { s with rxq := q }
        | param =>
          cases hq : s.rxq with
          | nil => simp [State.takeAction, State.rxRead, hq, Fetched.carryOut, reschedule]
          | cons b q =>
            simp only [State.takeAction, State.rxRead, hq]
            exact exec_schedule (decodeParameter b) x { s with rxq := q }
        | loc =>
          cases hq : s.localq with
          | nil => simp [State.takeAction, State.takeRequest, hq, Fetched.carryOut, reschedule]
          | cons r q =>
            simp only [State.takeAction, State.takeRequest, hq]
            cases decodeRequest r.lop r.arg with
            | ok i => exact exec_schedule i x { s with localq := q }
            | error e => rfl
        | emit => exact exec_schedule .emit x s
        | poll => exact exec_schedule .trigPoll x s

end Sys2Proof.Machine
end

