-- ==== Sys2Proof/Laws/Placement.lean ====
section
/-! SUPPORT. A buffer listed from consecutive bytes, and what the step after a placed command or request fetches. -/

namespace Sys2Proof.Machine

/-! ## A buffer of consecutive bytes -/

theorem Memory.read_ofBytes (a k : Nat) (d : List Byte) : Memory.read (Memory.ofBytes a d) (a + k) = d[k]? := by
  induction d generalizing a k with
  | nil => rfl
  | cons b rest ih =>
    cases k with
    | zero => simp [Memory.ofBytes, Memory.read]
    | succ k =>
      have h : a + (k + 1) = a + 1 + k := by omega
      simp [Memory.ofBytes, Memory.read, h, ih, show a ≠ a + 1 + k by omega]

theorem Memory.readFrom_ofBytes (d : List Byte) : Memory.readFrom (Memory.ofBytes 0 d) 0 d.length = .ok d :=
  (Memory.readFrom_ok_iff _ _ _ _).mpr ⟨rfl, fun k hk => by rw [Memory.read_ofBytes]; exact List.getElem?_eq_getElem hk⟩

theorem Memory.mem_ofBytes {a : Nat} {d : List Byte} {c : Host.Cell} (h : c ∈ Memory.ofBytes a d) :
    a ≤ c.1 ∧ c.1 < a + d.length := by
  induction d generalizing a with
  | nil => cases h
  | cons b rest ih =>
    simp only [Memory.ofBytes, List.mem_cons] at h
    rcases h with rfl | h
    · simp
    · have := ih h
      simp only [List.length_cons]
      omega

theorem Memory.wf_ofBytes {d : List Byte} (h : d.length ≤ 400) : Memory.wf (Memory.ofBytes 0 d) = true := by
  refine (Memory.wf_iff _).mpr ⟨?_, fun c hc => by have := Memory.mem_ofBytes hc; omega⟩
  suffices key : ∀ a, Memory.rising (Memory.ofBytes a d) from key 0
  clear h
  induction d with
  | nil => intro a; exact List.Pairwise.nil
  | cons b rest ih =>
    intro a
    exact List.pairwise_cons.mpr ⟨fun c hc => (Memory.mem_ofBytes hc).1, ih (a + 1)⟩

/-! ## Placed instructions -/

theorem State.readyToServe_pausedWhileDisabled (s : State) : s.readyToServe.pausedWhileDisabled = false := by
  unfold State.readyToServe State.pausedWhileDisabled
  cases s.enabled <;> simp

theorem State.readyToServe_collectible (s : State) : s.readyToServe.collectible = false := by
  unfold State.readyToServe State.collectible State.full
  cases s.enabled <;> cases h : (s.cursor == 400#9) <;> simp_all

/-- The step after a placed command runs its first byte's instruction, even where a local request waits as well. -/
theorem State.fetch_placeCommand (b : Byte) (bytes : List Byte) (s : State) :
    fetch (s.placeCommand (b :: bytes)) = .run (decodeOpcode b) { s.readyToServe with rxq := bytes ++ s.rxq } := by
  obtain ⟨t, ht⟩ : ∃ t : State, t = { s.readyToServe with rxq := b :: (bytes ++ s.rxq) } := ⟨_, rfl⟩
  have hp : t.pausedWhileDisabled = false := by rw [ht]; exact s.readyToServe_pausedWhileDisabled
  have hcol : t.collectible = false := by rw [ht]; exact s.readyToServe_collectible
  have hq : t.rxq = b :: (bytes ++ s.rxq) := by rw [ht]
  have hf : t.fg = .idle := by rw [ht]; rfl
  have hc : t.chooseAction .cmd = some .cmd := by
    have hen : t.enabledActions = .cmd :: (if t.localq.isEmpty then [] else [.loc]) := by
      simp [State.enabledActions, hf, State.rxAvail, hq, hcol]
    unfold State.chooseAction
    rw [hen]
    cases t.localq.isEmpty
    · cases ho : t.params.fgOrder <;> simp [admitted]
    · rfl
  have hn : (s.placeCommand (b :: bytes)).nextMove = (.foreground .cmd, t) := by rw [ht]; rfl
  simp [fetch, hn, State.fetchMove, hp, State.perform, hc, State.takeAction, State.rxRead, hq]
  subst ht
  and_intros <;> rfl

/-- The step after a placed request runs the operation its code is assigned. -/
theorem State.fetch_placeRequest {lop : Lop} {arg : Byte} {i : Instr} (h : decodeRequest lop arg = .ok i) (s : State) :
    fetch (s.placeRequest lop arg) = .run i { s.readyToServe with rxq := [] } := by
  obtain ⟨t, ht⟩ : ∃ t : State, t = { s.readyToServe with rxq := [], localq := ⟨lop, arg⟩ :: s.localq } := ⟨_, rfl⟩
  have hp : t.pausedWhileDisabled = false := by rw [ht]; exact s.readyToServe_pausedWhileDisabled
  have hcol : t.collectible = false := by rw [ht]; exact s.readyToServe_collectible
  have hl : t.localq = ⟨lop, arg⟩ :: s.localq := by rw [ht]
  have hen : t.enabledActions = [.loc] := by
    refine State.enabledActions_request ?_ ?_ hl hcol <;> rw [ht]
    rfl
  have hn : (s.placeRequest lop arg).nextMove = (.foreground .loc, t) := by rw [ht]; rfl
  simp [fetch, hn, State.fetchMove, hp, State.perform, State.chooseAction, hen, State.takeAction, State.takeRequest, hl, h]
  subst ht
  and_intros <;> rfl

end Sys2Proof.Machine
end

