-- ==== Sys2Proof/Laws/Taken.lean ====
section
/-! SUPPORT. What a move with, and without, a foreground action leaves in `FG` and in the receive queue: the steps of an
argument about fair executions. -/

namespace Sys2Proof.Machine

variable {m : Move} {s t : State}

theorem foreground_of_actionTaken {a : FgAction} (h : actionTaken m s = some a) :
    ∃ prefer, m = .foreground prefer ∧ s.chooseAction prefer = some a := by
  cases m <;> first | cases h | exact ⟨_, rfl, h⟩

/-- A foreground that takes no action changes nothing. -/
theorem stepMove_idle_foreground {prefer : FgAction} (h : stepMove (.foreground prefer) s = .next t)
    (hc : s.chooseAction prefer = none) : t = s := by
  unfold stepMove State.fetchMove at h
  split at h
  · cases h
  · simp only [State.perform, hc, Fetched.carryOut] at h
    cases h
    rfl

/-- Only a foreground action or a reset moves `FG`. -/
theorem fg_kept_without_action (h : stepMove m s = .next t) (hr : isReset m = false) (ha : actionTaken m s = none) :
    t.fg = s.fg := by
  cases m with
  | foreground prefer => rw [stepMove_idle_foreground h ha]
  | reset => cases hr
  | _ => cases stepMove_effect h <;> subst_vars <;> first | rfl | simp_all

/-- Only a command step, a parameter step or a reset takes bytes from the receive queue; others at most add to its end. -/
theorem rxq_kept_without_read (h : stepMove m s = .next t) (hr : isReset m = false) (h1 : actionTaken m s ≠ some .cmd)
    (h2 : actionTaken m s ≠ some .param) : s.rxq <+: t.rxq := by
  have hfg : ∀ prefer, m = .foreground prefer → t.rxq = s.rxq := by
    rintro prefer rfl
    cases hc : s.chooseAction prefer with
    | none => rw [stepMove_idle_foreground h hc]
    | some a =>
      unfold stepMove State.fetchMove at h
      split at h
      · cases h
      · simp only [State.perform, hc] at h
        have hmem := State.mem_enabledActions.mp (State.chooseAction_mem hc)
        cases a with
        | cmd => exact absurd hc h1
        | param => exact absurd hc h2
        | loc =>
          obtain ⟨r, q, hq⟩ := List.exists_cons_of_ne_nil hmem.2
          simp only [State.takeAction, State.takeRequest, hq] at h
          cases hi : decodeRequest r.lop r.arg with
          | error e => rw [hi] at h; cases h; rfl
          | ok i =>
            rw [hi] at h
            rcases decodeRequest_cases hi with ⟨-, rfl⟩ | ⟨-, rfl⟩ | ⟨-, rfl⟩ | ⟨-, rfl⟩ | ⟨-, rfl⟩
            · rw [← (execStart_next.mp h).2, State.startOp_eq]
            · rw [← (execStop_next.mp h).2, State.stopOp_eq]
            · rw [← (execArmTrig_next.mp h).2]
            · rw [← (execSetChan_next.mp h).2]; split <;> rfl
            · rw [← (execSetRef_next.mp h).2]
        | emit => obtain ⟨-, d, -, rfl⟩ := execEmit_next.mp h; split <;> rfl
        | poll => obtain ⟨-, v, k, -, rfl⟩ := execTrigPoll_next.mp h; split <;> rfl
  cases m with
  | foreground prefer => exact hfg prefer rfl ▸ List.prefix_rfl
  | reset => cases hr
  | _ => cases stepMove_effect h <;> subst_vars <;> simp_all

end Sys2Proof.Machine
end

