-- ==== Sys2Proof/Tests/Slice0.lean ====
section
/-! SUPPORT. Tests. Expected results come from spec/95_test_vectors.md (ids in the comments) and from the encodings of
spec/30_encoding.md, with the fixture of spec/95 section 0. The `witness_` theorems show, for each statement with
hypotheses, a concrete state and operands that meet all of them together, one for each clause. -/

namespace Sys2Proof.Tests

open Sys2Proof Sys2Proof.Machine

/-! ## The fixture and a few small states -/

/-- The fixture of spec/95 section 0. -/
def fixture : Params where
  table := [⟨0, 1, 1⟩, ⟨1, 5, 2⟩, ⟨2, 201, 20⟩, ⟨3, 76929, 1000⟩]

/-- The reset state with the fixture. -/
def base : State := State.resetWith fixture

/-- 400 samples `0xAB`. -/
@[irreducible] def samples : List Byte := List.replicate 400 0xAB#8

theorem samples_length : samples.length = 400 := by unfold samples; exact List.length_replicate

/-- A full buffer, not yet emitted (Program 6). -/
def full : State := { base with buf := Memory.ofBytes 0 samples, cursor := 400#9 }

/-- In the parameter wait, with these bytes in the receive queue. -/
def waiting (rxq : List Byte) : State := { base with fg := .waitParam, rxq := rxq }

/-- In the trigger wait at level `level`, with `v` in the latch. -/
def triggered (level v : Byte) : State :=
  { full with fg := .trigWait, trigMode := true, trigLvl := level, latch := .holds v }

/-- Whether an outcome is a next state with this property. -/
def after (o : Host.Outcome State Fault Refusal) (p : State → Bool) : Bool :=
  match o with
  | .next t => p t
  | .fault _ => false
  | .refused _ => false

theorem full_buffer : full.readBuffer = .ok samples := by
  have h := Memory.readFrom_ofBytes samples
  rwa [samples_length] at h

/-! ## Well-formedness: an ill-formed term for each check -/

theorem test_wellFormed_refuses_ignore_of_opcode :
    WellFormed (.ignore 0x50#8) = false ∧ WellFormed (.ignore 0x52#8) = false ∧ WellFormed (.ignore 0x53#8) = false := by
  decide

theorem test_wellFormed_refuses_short_data : WellFormed (.txData [0x00#8]) = false := by decide

theorem test_wellFormed_refuses_hundredths_of_100 : WellFormed (.txSettings 0#8 0#8 100#8) = false := by decide

theorem test_wellFormed_refuses_status_0_1 : WellFormed (.txStatus false true) = false := by decide

/-! ## Decoding: each constructor's word, written out from spec/30_encoding.md -/

theorem test_decode_p : decode (.opcode 0b01010000#8) = .ok .p := by decide

theorem test_decode_param : decode (.parameter 0b01010011#8) = .ok (.param 83#8) := by decide

theorem test_decode_s : decode (.opcode 0b01010011#8) = .ok .s := by decide

theorem test_decode_r : decode (.opcode 0b01010010#8) = .ok .r := by decide

theorem test_decode_ignore : decode (.opcode 0b01010001#8) = .ok (.ignore 0x51#8) := by decide

theorem test_decode_start : decode (.request 0b0000#4 0xA5#8) = .ok .start := by decide

theorem test_decode_stop : decode (.request 0b0001#4 0x00#8) = .ok .stop := by decide

theorem test_decode_armTrig : decode (.request 0b0011#4 0b10000000#8) = .ok (.armTrig 128#8) := by decide

theorem test_decode_setChan : decode (.request 0b0100#4 0b00000101#8) = .ok (.setChan 5#8) := by decide

theorem test_decode_setRef : decode (.request 0b0110#4 0b11111110#8) = .ok (.setRef false) := by decide

theorem test_decode_adcDone : decode (.event 0b10011100#8) = .ok (.adcDone 0x9C#8) := by decide

theorem test_decode_actions :
    decode (.action .emit) = .ok .emit ∧ decode (.action .trigPoll) = .ok .trigPoll := ⟨rfl, rfl⟩

theorem test_decode_txData :
    decode (.frame ([0xFF#8, 0xAA#8] ++ samples ++ [0x55#8, 0xEE#8])) = .ok (.txData samples) :=
  decodeFrame_data samples_length

theorem test_decode_txSettings :
    decode (.frame [0b01010011#8, 3#8, 0x4C#8, 0x5C#8]) = .ok (.txSettings 3#8 76#8 92#8) := by decide

theorem test_decode_txStatus : decode (.frame [0b01011000#8, 1#8, 0#8]) = .ok (.txStatus true false) := by decide

/-- The codes left unused on purpose, and the frame that is never sent (E-4). -/
theorem test_decode_rejects :
    decode (.request 0x2#4 0#8) = .error (.unassignedLop 0x2#4) ∧
      decode (.request 0x5#4 0#8) = .error (.unassignedLop 0x5#4) ∧
      decode (.frame [0x58#8, 0x00#8, 0x01#8]) = .error .notAFrame ∧
      decode (.frame [0x58#8, 0x02#8, 0x00#8]) = .error .notAFrame := by decide

/-- The receive queue of Program 3: `50 02 50 09 50 53 52`. -/
theorem test_decodeStream_program3 :
    decodeStream false [0x50#8, 0x02#8, 0x50#8, 0x09#8, 0x50#8, 0x53#8, 0x52#8] =
      [.p, .param 2#8, .p, .param 9#8, .p, .param 83#8, .r] := by decide

theorem test_decodeTableWord :
    decodeTableWord 8 0x50 = some .p ∧ decodeTableWord 16 0x0250 = some .p ∧ decodeTableWord 8 0x53 = some .s ∧
      decodeTableWord 8 0x52 = some .r ∧ decodeTableWord 8 0x41 = some (.ignore 0x41#8) ∧
      decodeTableWord 4 0x0 = some .start ∧ decodeTableWord 4 0x1 = some .stop ∧
      decodeTableWord 16 0x8003 = some (.armTrig 0x80#8) ∧ decodeTableWord 16 0x0504 = some (.setChan 5#8) ∧
      decodeTableWord 16 0x0106 = some (.setRef true) ∧ decodeTableWord 32 0x53034C5C = some (.txSettings 3#8 76#8 92#8) ∧
      decodeTableWord 24 0x580101 = some (.txStatus true true) := by decide

/-! ## Parameters (2.5, U7) -/

/-- 76.929, 10.05, 9.999, 0.29 and 255.99. -/
theorem test_rate_bytes :
    ([⟨0, 76929, 1000⟩, ⟨0, 201, 20⟩, ⟨0, 9999, 1000⟩, ⟨0, 29, 100⟩, ⟨0, 25599, 100⟩] : List RateEntry).map
        (fun e => (rateInt e, rateCenti e)) =
      [(76#8, 92#8), (10#8, 5#8), (9#8, 99#8), (0#8, 29#8), (255#8, 99#8)] := by decide

/-- A rate of 256 and a table of three entries are refused. -/
theorem test_params_refused :
    Params.build? (List.replicate 4 ⟨0, 256, 1⟩) 0#8 0#3 false 0#8 .any = none ∧
      Params.build? (List.replicate 3 ⟨0, 1, 1⟩) 0#8 0#3 false 0#8 .any = none := by decide

/-- R98: in opcode position the bytes 0x00, 0x01, 0x03, 0x04 and 0x06 are `IGNORE`, whatever the local port's codes are. -/
theorem test_decode_low_bytes : [0x00#8, 0x01#8, 0x03#8, 0x04#8, 0x06#8].map decodeOpcode =
    [.ignore 0x00#8, .ignore 0x01#8, .ignore 0x03#8, .ignore 0x04#8, .ignore 0x06#8] := by decide

/-! ## One step of each instruction -/

/-- D1. -/
theorem test_p : after (exec .p base) (fun t => t.fg == .waitParam && t.out == []) = true := by decide

/-- D10. -/
theorem test_param_accepted : after (exec (.param 0#8) (waiting [])) (fun t =>
    t.dividx == 0#8 && t.fg == .idle && t.txlog == [0x53#8, 0x00#8, 0x01#8, 0x00#8]
      && t.plog == [.configure 0#3 0#8 false .divider]) = true := by decide

/-- D13. -/
theorem test_param_rejected : after (exec (.param 0x53#8) (waiting [])) (fun t =>
    t.dividx == 3#8 && t.fg == .idle && t.out == [] && t.enabled) = true := by decide

/-- B9. -/
theorem test_s_disables : after (exec .s { base with paused := true, cursor := 200#9 }) (fun t =>
    !t.enabled && !t.paused && t.cursor == 200#9 && t.txlog == [0x58#8, 0x00#8, 0x00#8]
      && t.plog == [.disableAutoRetrigger]) = true := by decide

/-- B8. -/
theorem test_s_enables : after (exec .s { base with enabled := false, cursor := 200#9 }) (fun t =>
    t.enabled && !t.paused && t.cursor == 0#9 && t.txlog == [0x58#8, 0x01#8, 0x00#8]
      && t.plog == [.armAutoTrigger]) = true := by decide

/-- D25. -/
theorem test_r : after (exec .r { base with dividx := 1#8 }) (fun t =>
    t.txlog == [0x53#8, 0x01#8, 0x02#8, 0x32#8] && t.plog == []) = true := by decide

/-- D8. -/
theorem test_ignore : after (exec (decodeOpcode 0x70#8) base) (fun t => decide (t = base)) = true := by decide

/-- B2. -/
theorem test_start : after (exec .start { base with enabled := false, cursor := 400#9 }) (fun t =>
    t.enabled && !t.paused && t.cursor == 0#9
      && t.out == [.call .armAutoTrigger, .tx 0x58#8, .tx 0x01#8, .tx 0x00#8]) = true := by decide

/-- B4. -/
theorem test_stop_enabled : after (exec .stop { base with cursor := 57#9 }) (fun t =>
    t.enabled && t.paused && t.cursor == 57#9
      && t.out == [.call .disableAutoRetrigger, .tx 0x58#8, .tx 0x01#8, .tx 0x01#8]) = true := by decide

/-- B5. -/
theorem test_stop_disabled : after (exec .stop { base with enabled := false, cursor := 57#9 }) (fun t =>
    !t.enabled && !t.paused && t.txlog == [0x58#8, 0x00#8, 0x00#8]) = true := by decide

/-- B11. -/
theorem test_armTrig : after (exec (.armTrig 0x00#8) { base with trigMode := true, trigLvl := 0x80#8 }) (fun t =>
    t.trigMode && t.trigLvl == 0x00#8 && t.out == []) = true := by decide

/-- C1. -/
theorem test_setChan_accepted : after (exec (.setChan 5#8) base) (fun t =>
    t.chan == 5#3 && t.out == [.call (.configure 5#3 3#8 false .channel)]) = true := by decide

/-- C2. -/
theorem test_setChan_rejected : after (exec (.setChan 6#8) base) (fun t => decide (t = base)) = true := by decide

/-- C11. -/
theorem test_setRef : after (exec (.setRef false) { base with intref := true }) (fun t =>
    !t.intref && t.out == [.call (.configure 0#3 3#8 false .reference)]) = true := by decide

/-- A5: `PAUSED` is not consulted. -/
theorem test_adcDone_paused : after (exec (.adcDone 0x34#8) { base with paused := true, cursor := 10#9 }) (fun t =>
    Memory.read t.buf 10 == some 0x34#8 && t.cursor == 11#9 && t.paused) = true := by decide

/-- A3: the 401st sample. -/
theorem test_adcDone_full : after (exec (.adcDone 0x12#8) { base with cursor := 400#9 }) (fun t =>
    t.buf == [] && t.cursor == 400#9) = true := by decide

/-- Program 6, order A: the frame of 400 bytes `AB`. -/
theorem test_emit : exec .emit full = .next { full with
    out := ([0xFF#8, 0xAA#8] ++ samples ++ [0x55#8, 0xEE#8]).map .tx, cursor := 0#9 } :=
  execEmit_next.mpr ⟨⟨rfl, rfl, rfl⟩, _, full_buffer, rfl⟩

/-- D23: with trigger mode on the cursor stays at 400. -/
theorem test_emit_trigger : ∃ t, exec .emit { full with trigMode := true } = .next t ∧ t.fg = .trigWait ∧ t.cursor = 400#9 :=
  ⟨_, execEmit_next.mpr ⟨⟨rfl, rfl, rfl⟩, _, full_buffer, rfl⟩, rfl, rfl⟩

/-- B13. -/
theorem test_trigPoll_reached : after (exec .trigPoll { triggered 0x80#8 0x80#8 with buf := [] }) (fun t =>
    t.fg == .idle && t.cursor == 0#9 && t.out == []) = true := by decide

/-- B16. -/
theorem test_trigPoll_below : after (exec .trigPoll { triggered 0xFF#8 0xFE#8 with buf := [] }) (fun t =>
    t.fg == .trigWait && t.cursor == 400#9) = true := by decide

theorem test_txData : exec (.txData samples) full = .next { full with
    out := ([0xFF#8, 0xAA#8] ++ samples ++ [0x55#8, 0xEE#8]).map .tx } :=
  execTxData_next.mpr ⟨⟨rfl, rfl, rfl⟩, full_buffer, rfl⟩

theorem test_txSettings : after (exec (.txSettings 3#8 76#8 92#8) base) (fun t =>
    t.txlog == [0x53#8, 0x03#8, 0x4C#8, 0x5C#8]) = true := by decide

/-- E-3. -/
theorem test_txStatus : after (exec (.txStatus true true) { base with paused := true }) (fun t =>
    t.txlog == [0x58#8, 0x01#8, 0x01#8]) = true := by decide

/-! ## The sequencer -/

/-- D24: in the trigger wait the byte stays queued. -/
theorem test_trigWait_reads_no_byte :
    after (stepMove (.foreground .cmd) { triggered 0x80#8 0x7F#8 with buf := [], rxq := [0x52#8] })
      (fun t => t.rxq == [0x52#8] && t.out == []) = true := by decide

/-- D16: in the parameter wait a full buffer is not emitted. -/
theorem test_waitParam_emits_nothing :
    after (stepMove (.foreground .emit) { waiting [] with cursor := 400#9 })
      (fun t => t.fg == .waitParam && t.cursor == 400#9 && t.out == []) = true := by decide

/-- R-2, R-3. -/
theorem test_reset_move : after (stepMove (.reset false false)
    { triggered 0x80#8 0x00#8 with dividx := 0#8, chan := 5#3, intref := true }) (fun t =>
      !t.trigMode && t.fg == .idle && t.cursor == 0#9 && t.dividx == 3#8 && t.chan == 0#3 && !t.intref) = true := by decide

/-- U3. -/
theorem test_pausedWhileDisabled_refused :
    stepMove (.convert 0x01#8) { base with enabled := false, paused := true } = .refused .pausedWhileDisabled := rfl

/-- The reset state of the device runs a placed `S`: D3. -/
theorem test_placed_s : after (step (State.reset.withFetchWord 8 0x53)) (fun t =>
    t.txlog == [0x58#8, 0x00#8, 0x00#8] && !t.enabled) = true := by decide

/-- R196 (c): the converter's schedule of Program 4. -/
theorem test_latchFollows : latchFollows [.convert 0x7F#8, .setLatch 0x7F#8, .foreground .poll] = true ∧
    latchFollows [.convert 0x7F#8, .foreground .poll] = false := by decide

/-! ## Witnesses: a state and operands that meet the hypotheses of a statement -/

theorem full_written (k : Nat) (h : k < 400) : ∃ b, Memory.read full.buf k = some b := by
  have hr : Memory.read (Memory.ofBytes 0 samples) (0 + k) = samples[k]? := Memory.read_ofBytes 0 k samples
  rw [Nat.zero_add, List.getElem?_eq_getElem (by rw [samples_length]; exact h)] at hr
  exact ⟨_, hr⟩

theorem full_inv : StateInv full where
  bufferCanonical := Memory.wf_ofBytes (Nat.le_of_eq samples_length)
  cursorInRange := Nat.le_refl 400
  pausedImpliesEnabled := fun h => by cases h
  indexInTable := by decide
  channelInSet := by decide
  trigWaitHolds := fun h => by cases h
  belowCursorWritten := full_written

/-- `full` with the trigger armed, in the wait: the invariant's clause about `TrigWait` is met too. -/
theorem triggered_inv (level v : Byte) : StateInv (triggered level v) where
  bufferCanonical := full_inv.bufferCanonical
  cursorInRange := Nat.le_refl 400
  pausedImpliesEnabled := fun h => by cases h
  indexInTable := by exact full_inv.indexInTable
  channelInSet := by exact full_inv.channelInSet
  trigWaitHolds := fun _ => ⟨rfl, rfl, rfl⟩
  belowCursorWritten := full_written

/-! Encoding -/

theorem witness_DecodeAfterEncodeGivesInstrBack :
    WellFormed (.ignore 0x51#8) = true ∧ WellFormed (.txData samples) = true ∧
      WellFormed (.txSettings 255#8 255#8 99#8) = true ∧ WellFormed (.txStatus true true) = true := by
  refine ⟨by decide, ?_, by decide, by decide⟩
  simp [WellFormed, samples_length, capacity]

theorem witness_DecodedCodeIsTheEncoding :
    (decode (.parameter 0xFF#8) = .ok (.param 0xFF#8) ∧ ∀ lop arg, Code.parameter 0xFF#8 ≠ .request lop arg) ∧
      decode (.request 0x6#4 0xFF#8) = .ok (.setRef true) := by
  refine ⟨⟨rfl, fun _ _ h => by cases h⟩, by decide⟩

theorem witness_CommandStreamDecodesToItsCommands :
    ∀ c ∈ [Command.setDivider 0x53#8, .toggle, .query, .other 0x00#8], c.wellFormed = true := by decide

theorem witness_CommandBytesDetermineTheCommands :
    (∀ c ∈ [Command.setDivider 0x50#8, .other 0xFF#8], c.wellFormed = true) ∧
      [Command.setDivider 0x50#8, .other 0xFF#8].flatMap Command.bytes =
        [Command.setDivider 0x50#8, .other 0xFF#8].flatMap Command.bytes := by decide

/-! The acquisition engine -/

/-- A2, A3, A4. -/
theorem witness_ConversionStoresOrIsDropped :
    ({ base with cursor := 399#9 }.enabled = true ∧ ({ base with cursor := 399#9 } : State).cursor.toNat < 400) ∧
      ¬(full.enabled = true ∧ full.cursor.toNat < 400) ∧
      ¬(({ base with enabled := false } : State).enabled = true ∧ base.cursor.toNat < 400) := by
  refine ⟨⟨rfl, by decide⟩, fun h => absurd h.2 (by decide), fun h => by cases h.1⟩

theorem witness_EventsFillTheBufferInOrder :
    (base.enabled = true ∧ base.cursor.toNat ≤ 400 ∧ base.collected = .ok []) ∧
      (full.enabled = true ∧ full.cursor.toNat ≤ 400 ∧ full.collected = .ok samples) :=
  ⟨⟨rfl, by decide, rfl⟩, rfl, Nat.le_refl 400, full_buffer⟩

theorem witness_FullBufferIsSentAsOneDataFrame (trigMode : Bool) :
    ∃ s : State, 400 ≤ samples.length ∧ s.enabled = true ∧ s.cursor = 0#9 ∧ s.fg = .idle ∧ s.rxq = [] ∧ s.localq = [] ∧
      s.schedule = samples.map .convert ++ .foreground .emit :: [] ∧ s.trigMode = trigMode :=
  ⟨{ base with trigMode := trigMode, schedule := samples.map .convert ++ .foreground .emit :: [] },
    Nat.le_of_eq samples_length.symm, rfl, rfl, rfl, rfl, rfl, rfl, rfl⟩

/-! The sampling controller -/

theorem witness_StartResult : base.fg = .idle := rfl

theorem witness_StopResult : (base.fg = .idle ∧ base.enabled = true) ∧
    ({ base with enabled := false }.fg = Fg.idle ∧ ({ base with enabled := false } : State).enabled = false) := by decide

theorem witness_ToggleResult : (base.fg = .idle ∧ base.enabled = true) ∧
    ({ base with enabled := false }.fg = Fg.idle ∧ ({ base with enabled := false } : State).enabled = false) := by decide

theorem witness_TwoTogglesRestoreEnabled : base.fg = .idle := rfl

theorem witness_StopThenStartResetsCursor : full.fg = .idle := rfl

theorem witness_ArmTrigResult : base.fg = .idle := rfl

/-- B13, B12, and a latch that nothing has filled. -/
theorem witness_TrigPollResult :
    ((triggered 0x80#8 0x80#8).fg = .trigWait ∧ (triggered 0x80#8 0x80#8).latch = .holds 0x80#8 ∧
      (triggered 0x80#8 0x80#8).trigLvl.toNat ≤ (0x80#8).toNat) ∧
    ((triggered 0x80#8 0x7F#8).fg = .trigWait ∧ (triggered 0x80#8 0x7F#8).latch = .holds 0x7F#8 ∧
      (0x7F#8).toNat < (triggered 0x80#8 0x7F#8).trigLvl.toNat) ∧
    ({ triggered 0x80#8 0x80#8 with latch := .undetermined }.fg = Fg.trigWait) :=
  ⟨⟨rfl, rfl, by decide⟩, ⟨rfl, rfl, by decide⟩, rfl⟩

theorem witness_TriggerWaitLastsWhileLatchIsBelow :
    (∀ m ∈ [Move.convert 0x90#8, .deliver 0x52#8, .post 0x0#4 0#8, .foreground .poll], leavesTriggerAlone m = true) ∧
      (triggered 0x80#8 0x7F#8).fg = .trigWait ∧ (triggered 0x80#8 0x7F#8).latch = .holds 0x7F#8 ∧
      (0x7F#8).toNat < (triggered 0x80#8 0x7F#8).trigLvl.toNat ∧ (triggered 0x80#8 0x7F#8).cursor = 400#9 ∧
      (triggered 0x80#8 0x7F#8).pausedWhileDisabled = false :=
  ⟨by decide, rfl, rfl, by decide, rfl, rfl⟩

theorem witness_TriggerModeStaysOn : base.fg = .idle ∧
    (∃ t, isReset (.foreground .poll) = false ∧ (triggered 0x80#8 0x80#8).trigMode = true ∧
      stepMove (.foreground .poll) (triggered 0x80#8 0x80#8) = .next t) ∧
    (∃ t, stepMove (.reset false false) (triggered 0x80#8 0x80#8) = .next t) ∧ (∃ t, exec .emit full = .next t) :=
  ⟨rfl, ⟨_, rfl, rfl, rfl⟩, ⟨_, rfl⟩, _, test_emit⟩

/-- The run of the next witness: one poll ends the wait, then nothing is enabled. -/
def polledRun : Nat → State
  | 0 => triggered 0x80#8 0x80#8
  | _ + 1 => { triggered 0x80#8 0x80#8 with cursor := 0#9, fg := .idle }

theorem witness_FairTriggerWaitEnds : Execution (fun _ => .foreground .poll) polledRun ∧
    Fair (fun _ => .foreground .poll) polledRun ∧
    (∀ m, 0 ≤ m → ∃ v, (polledRun m).latch = .holds v ∧ (polledRun m).trigLvl.toNat ≤ v.toNat) ∧
    (polledRun 0).fg = .trigWait := by
  have quiet : ∀ (a : FgAction) (m : Nat), 1 ≤ m → a ∉ (polledRun m).enabledActions
    | _, _ + 1, _ => by intro h; cases h
  refine ⟨fun n => ?_, ⟨fun a n h => ?_, fun a n h => ?_⟩, fun m _ => ⟨0x80#8, ?_, ?_⟩, rfl⟩
  · cases n <;> rfl
  · exact absurd (h (n + 1) (Nat.le_succ n)) (quiet a (n + 1) (Nat.le_add_left 1 n))
  · obtain ⟨m, hm, -, ha, -⟩ := h (n + 1) (Nat.le_succ n)
    exact absurd ha (quiet a m (by omega))
  · cases m <;> rfl
  · cases m <;> exact Nat.le_refl 128

/-! The configuration store -/

/-- C1, C2. -/
theorem witness_SetChanResult : base.fg = .idle ∧ (5#8).toNat ≤ 5 ∧ 5 < (6#8).toNat := ⟨rfl, by decide, by decide⟩

theorem witness_SetRefResult : base.fg = .idle := rfl

/-- The last index of the table and the first one outside it. -/
theorem witness_ParameterByteResult : (waiting []).fg = .waitParam ∧
    (waiting []).params.table[(3#8).toNat]? = some ⟨3, 76929, 1000⟩ ∧ (waiting []).params.entries ≤ (4#8).toNat :=
  ⟨rfl, rfl, by decide⟩

/-- 255.99, the largest pair. -/
theorem witness_RateBytesTruncateTheRate : RateEntry.valid ⟨0, 25599, 100⟩ = true := by decide

theorem witness_MirrorRuleKeptByEveryStep : ∃ t,
    ({ base with schedule := [.foreground .loc], localq := [⟨0x4#4, 5#8⟩] } : State).mirrorHolds ∧
      step { base with schedule := [.foreground .loc], localq := [⟨0x4#4, 5#8⟩] } = .next t := ⟨_, rfl, rfl⟩

theorem witness_SetDividerThenQuery (idx : Byte) : ∃ s : State, s.fg = .idle ∧ s.rxq = [0x50#8, idx, 0x52#8] ∧
    s.localq = [] ∧ s.collectible = false ∧ s.pausedWhileDisabled = false ∧
    s.schedule = .foreground .cmd :: .foreground .param :: .foreground .cmd :: [] ∧
    s.params.table[(3#8).toNat]? = some ⟨3, 76929, 1000⟩ ∧ s.params.entries ≤ (4#8).toNat :=
  ⟨{ base with
      rxq := [0x50#8, idx, 0x52#8], schedule := [.foreground .cmd, .foreground .param, .foreground .cmd] },
    rfl, rfl, rfl, rfl, rfl, rfl, rfl, Nat.le_refl 4⟩

theorem witness_ByteAfterPIsSwallowed : ∃ s : State, s.fg = .idle ∧ s.rxq = [0x50#8, 0x53#8] ∧ s.localq = [] ∧
    s.collectible = false ∧ s.pausedWhileDisabled = false ∧
    s.schedule = .foreground .cmd :: .foreground .param :: [] ∧ ¬ 83 < s.params.entries :=
  ⟨{ base with rxq := [0x50#8, 0x53#8], schedule := [.foreground .cmd, .foreground .param] },
    rfl, rfl, rfl, rfl, rfl, rfl, by decide⟩

/-- Program 5, with the cursor at the last cell. -/
theorem witness_AcceptedDividerResumesWhilePaused : ∃ s : State, s.fg = .waitParam ∧ (1#8).toNat < s.params.entries ∧
    s.enabled = true ∧ s.paused = true ∧ s.cursor.toNat < 400 :=
  ⟨{ waiting [] with paused := true, cursor := 399#9 }, rfl, by decide, rfl, rfl, by decide⟩

/-! The frame protocol -/

theorem witness_FirstByteOfPResult : (base.fg = .idle ∧ base.rxq = []) ∧
    ({ base with rxq := [0x02#8] }.fg = Fg.idle ∧ ({ base with rxq := [0x02#8] } : State).rxq ≠ []) := by decide

theorem witness_QueryResult : base.fg = .idle ∧ base.params.table[base.dividx.toNat]? = some ⟨3, 76929, 1000⟩ := ⟨rfl, rfl⟩

/-- D5, D6: the bytes beside the opcodes. -/
theorem witness_IgnoreResult : ∃ s : State, s.fg = .idle ∧ s.pausedWhileDisabled = false ∧
    s.chooseAction .cmd = some .cmd ∧ s.rxq = 0x51#8 :: [0x54#8] ∧ 0x51#8 ≠ 0x50#8 ∧ 0x51#8 ≠ 0x52#8 ∧ 0x51#8 ≠ 0x53#8 :=
  ⟨{ base with rxq := [0x51#8, 0x54#8] }, rfl, rfl, rfl, rfl, by decide, by decide, by decide⟩

theorem witness_EmitResult (trigMode : Bool) : ∃ s : State, s.fg = .idle ∧ s.enabled = true ∧ s.cursor = 400#9 ∧
    (∀ k, k < 400 → ∃ b, Memory.read s.buf k = some b) ∧ s.trigMode = trigMode :=
  ⟨{ full with trigMode := trigMode }, rfl, rfl, rfl, full_written, rfl⟩

theorem witness_EmitFaultsOnUnwrittenCell : ∃ s : State, s.fg = .idle ∧ s.enabled = true ∧ s.cursor = 400#9 ∧ 1 < 400 ∧
    Memory.read s.buf 1 = none ∧ (∀ j, j < 1 → ∃ b, Memory.read s.buf j = some b) :=
  ⟨{ base with cursor := 400#9, buf := [(0, 0x01#8)] }, rfl, rfl, rfl, by decide, rfl,
    fun j h => ⟨0x01#8, by rw [Nat.lt_one_iff.mp h]; rfl⟩⟩

theorem witness_OneFramePerFullBuffer : ∃ t u, exec .emit full = .next t ∧
    ([Move.deliver 0x52#8, .convert 0x01#8].filter isConvert).length < 400 ∧
    runMoves [.deliver 0x52#8, .convert 0x01#8] t = .next u :=
  ⟨_, _, test_emit, by decide, rfl⟩

theorem witness_FrameRowsSendTheirFrame :
    (base.fg = .idle ∧ base.enabled = true ∧ base.paused = false) ∧
    (base.fg ≠ .trigWait ∧ base.dividx = 3#8 ∧ base.params.table[(3#8).toNat]? = some ⟨3, 76929, 1000⟩) ∧
    (full.fg = .idle ∧ full.enabled = true ∧ full.cursor = 400#9 ∧ samples.length = 400 ∧
      ∀ k (h : k < samples.length), Memory.read full.buf k = some samples[k]) := by
  refine ⟨⟨rfl, rfl, rfl⟩, ⟨by decide, rfl, rfl⟩, rfl, rfl, rfl, samples_length, fun k h => ?_⟩
  have hr : Memory.read (Memory.ofBytes 0 samples) (0 + k) = samples[k]? := Memory.read_ofBytes 0 k samples
  rwa [Nat.zero_add, List.getElem?_eq_getElem h] at hr

theorem witness_WhichInstructionSendsWhat : ∃ t, exec .emit full = .next t := ⟨_, test_emit⟩

theorem witness_EveryStepSendsWholeFrames : ∃ t, isReset (.foreground .emit) = false ∧
    stepMove (.foreground .emit) full = .next t := ⟨_, rfl, test_emit⟩

/-- The four rows that move `FG`, and a reset. -/
theorem witness_SequencerTransitions :
    (∃ t, stepMove (.foreground .cmd) { base with rxq := [0x50#8] } = .next t ∧ t.fg = .waitParam) ∧
    (∃ t, stepMove (.foreground .emit) { full with trigMode := true } = .next t ∧ t.fg = .trigWait) ∧
    (∃ t, stepMove (.foreground .param) (waiting [0x03#8]) = .next t ∧ t.fg = .idle) ∧
    (∃ t, stepMove (.foreground .poll) (triggered 0x80#8 0x80#8) = .next t ∧ t.fg = .idle) ∧
    (∃ t, isReset (.reset true false) = true ∧ stepMove (.reset true false) (triggered 0x80#8 0x80#8) = .next t) := by
  obtain ⟨t, h, hf, -⟩ := test_emit_trigger
  exact ⟨⟨_, rfl, rfl⟩, ⟨t, h, hf⟩, ⟨_, rfl, rfl⟩, ⟨_, rfl, rfl⟩, _, rfl, rfl⟩

theorem witness_CursorWriters : ∃ t, isReset (.convert 0xFF#8) = false ∧
    stepMove (.convert 0xFF#8) { base with cursor := 399#9 } = .next t := ⟨_, rfl, rfl⟩

theorem witness_BufferWriters : ∃ t, isReset (.convert 0xFF#8) = false ∧
    stepMove (.convert 0xFF#8) { base with cursor := 399#9 } = .next t ∧
    Memory.read t.buf 399 ≠ Memory.read base.buf 399 := ⟨_, rfl, rfl, by decide⟩

theorem witness_ParametersAreReadOnly : ∃ t, step { base with schedule := [.convert 0x01#8] } = .next t := ⟨_, rfl⟩

theorem witness_OnlyTheForegroundWritesFlags : ∃ t, isReset (.convert 0x01#8) = false ∧
    (∀ prefer, Move.convert 0x01#8 ≠ .foreground prefer) ∧ stepMove (.convert 0x01#8) base = .next t ∧
    ({ base with rxq := [0x50#8], localq := [⟨0x0#4, 0#8⟩] } : State).pausedWhileDisabled = false :=
  ⟨_, rfl, fun _ h => (by cases h), rfl, rfl⟩

theorem witness_ParameterWaitLastsWithoutAByte :
    (∀ m ∈ [Move.convert 0x01#8, .setLatch 0x01#8, .post 0x0#4 0#8, .foreground .param], leavesStreamAlone m = true) ∧
      (waiting []).fg = .waitParam ∧ (waiting []).rxq = [] ∧ (waiting []).pausedWhileDisabled = false :=
  ⟨by decide, rfl, rfl, rfl⟩

theorem witness_UnassignedRequestIsDiscarded :
    0x2#4 ∉ [0x0#4, 0x1#4, 0x3#4, 0x4#4, 0x6#4] ∧ 0xF#4 ∉ [0x0#4, 0x1#4, 0x3#4, 0x4#4, 0x6#4] ∧ base.fg = .idle ∧
      base.rxq = [] ∧ base.collectible = false ∧ base.pausedWhileDisabled = false ∧
      ({ base with localq := [⟨0x2#4, 0xFF#8⟩] } : State).localq = ⟨0x2#4, 0xFF#8⟩ :: [] := by decide

/-- Program 6, under each `FG_ORDER`. -/
theorem witness_ToggleMeetsFullBuffer (order : FgOrder) : ∃ s : State, s.fg = .idle ∧ s.enabled = true ∧
    s.cursor = 400#9 ∧ s.trigMode = false ∧ s.readBuffer = .ok samples ∧ s.rxq = 0x53#8 :: [0x53#8] ∧
    s.params.fgOrder = order :=
  ⟨{ full with params := { fixture with fgOrder := order }, rxq := [0x53#8, 0x53#8] }, rfl, rfl, rfl, rfl, full_buffer,
    rfl, rfl⟩

theorem witness_QuiescentForegroundDoesNothing : base.quiescent ∧ base.pausedWhileDisabled = false :=
  ⟨⟨rfl, rfl, rfl, fun h => absurd h.2 (by decide)⟩, rfl⟩

/-! The two contexts -/

theorem witness_HandlerCommutesWithForeground : ∃ t u, exec .stop base = .next t ∧ exec (.adcDone 0x01#8) base = .next u :=
  ⟨_, _, rfl, rfl⟩

theorem witness_HandlerInsideStartIsInvisible : ∃ t, base.fg = .idle ∧
    exec (.adcDone 0x01#8) { { base with enabled := false } with enabled := true } = .next t := ⟨_, rfl, rfl⟩

theorem witness_PausedIsReadOnlyByTheStatusFrame : ∃ t, Instr.r ≠ .stop ∧ (∀ e q, Instr.r ≠ .txStatus e q) ∧
    Instr.r ≠ .start ∧ Instr.r ≠ .s ∧ exec .r base = .next t :=
  ⟨_, by decide, fun _ _ h => (by cases h), by decide, by decide, rfl⟩

/-! The whole machine -/

theorem witness_StepRunsTheDecodedInstruction :
    base.pausedWhileDisabled = false ∧ decode (.event 0x01#8) = .ok (.adcDone 0x01#8) ∧
      ({ base with rxq := [0x53#8] } : State).chooseAction .cmd = some .cmd ∧ decode (.opcode 0x53#8) = .ok .s ∧
      (waiting [0x53#8]).chooseAction .cmd = some .param ∧ decode (.parameter 0x53#8) = .ok (.param 0x53#8) ∧
      ({ base with localq := [⟨0x0#4, 0#8⟩] } : State).chooseAction .cmd = some .loc ∧
      decode (.request 0x0#4 0#8) = .ok .start ∧
      full.chooseAction .emit = some .emit ∧ decode (.action .emit) = .ok .emit ∧
      (triggered 0x80#8 0x80#8).chooseAction .cmd = some .poll ∧ decode (.action .trigPoll) = .ok .trigPoll ∧
      base.chooseAction .cmd = none :=
  ⟨rfl, rfl, rfl, rfl, rfl, rfl, rfl, rfl, rfl, rfl, rfl, rfl, rfl⟩

/-- A command, a request and a full buffer at once, under each `FG_ORDER`, and a request with a full buffer. -/
theorem witness_SequencerChoosesAmongEnabledActions (order : FgOrder) : ∃ s t : State,
    (s.params.fgOrder = order ∧ .cmd ∈ s.enabledActions ∧ .loc ∈ s.enabledActions ∧ .emit ∈ s.enabledActions) ∧
    (t.params.fgOrder = order ∧ .cmd ∉ t.enabledActions ∧ .loc ∈ t.enabledActions) :=
  ⟨{ full with params := { fixture with fgOrder := order }, rxq := [0x53#8], localq := [⟨0x0#4, 0#8⟩] },
    { full with params := { fixture with fgOrder := order }, localq := [⟨0x0#4, 0#8⟩] },
    ⟨rfl, State.mem_enabledActions.mpr ⟨rfl, List.cons_ne_nil _ _⟩, State.mem_enabledActions.mpr ⟨rfl, List.cons_ne_nil _ _⟩,
      State.mem_enabledActions.mpr ⟨rfl, rfl, rfl⟩⟩,
    rfl, fun h => (State.mem_enabledActions.mp h).2 rfl, State.mem_enabledActions.mpr ⟨rfl, List.cons_ne_nil _ _⟩⟩

theorem witness_PlacedWordRunsNext : decodeTableWord 16 0x8003 = some (.armTrig 0x80#8) ∧
    (∀ d, Instr.armTrig 0x80#8 ≠ .txData d) ∧ (∀ x r c, Instr.armTrig 0x80#8 ≠ .txSettings x r c) ∧
    (∀ e p, Instr.armTrig 0x80#8 ≠ .txStatus e p) :=
  ⟨by decide, fun _ h => (by cases h), fun _ _ _ h => (by cases h), fun _ _ h => (by cases h)⟩

theorem witness_PausedWhileDisabledIsRefused : ∃ s : State, s.enabled = false ∧ s.paused = true ∧
    isReset (.convert 0x01#8) = false := ⟨{ base with enabled := false, paused := true }, rfl, rfl, rfl⟩

theorem witness_InvariantKeptByEveryStep : ∃ s t : State, StateInv s ∧ step s = .next t := by
  refine ⟨{ full with schedule := [.foreground .emit] }, _, ?_, test_emit⟩
  obtain ⟨h1, h2, h3, h4, h5, h6, h7⟩ := full_inv
  exact ⟨h1, h2, h3, h4, h5, h6, h7⟩

theorem witness_StepNeverStops : StateInv full ∧ StateInv (triggered 0xFF#8 0x00#8) := ⟨full_inv, triggered_inv _ _⟩

/-- The run of the next witness: a full buffer with an `R` queued, the query first, then the emission, then nothing. -/
def owedRun : Nat → State
  | 0 => { full with rxq := [0x52#8] }
  | 1 => { full with out := [.tx 0x53#8, .tx 0x03#8, .tx 0x4C#8, .tx 0x5C#8] }
  | _ + 2 => { full with
      out := [.tx 0x53#8, .tx 0x03#8, .tx 0x4C#8, .tx 0x5C#8] ++ (dataBytes samples).map .tx, cursor := 0#9 }

theorem witness_FairRunsSendWhatIsOwed : Execution (fun _ => .foreground .cmd) owedRun ∧
    Fair (fun _ => .foreground .cmd) owedRun ∧ (∀ m, 0 ≤ m → isReset (.foreground .cmd) = false) ∧
    (∀ k, 0 ≤ k → ∃ m, k ≤ m ∧ (owedRun m).fg = .idle) ∧ (owedRun 0).rxq = [] ++ 0x52#8 :: [] ∧
    (∀ m, 0 ≤ m → (∀ k, 0 ≤ k → k < m → actionTaken (.foreground .cmd) (owedRun k) ≠ some .emit) →
      (owedRun m).collectible = true) := by
  have quiet : ∀ (a : FgAction) (m : Nat), 2 ≤ m → a ∉ (owedRun m).enabledActions
    | _, 1, h => absurd h (by decide)
    | _, _ + 2, _ => by intro h; cases h
  refine ⟨fun n => ?_, ⟨fun a n h => ?_, fun a n h => ?_⟩, fun _ _ => rfl, fun k _ => ⟨k, Nat.le_refl k, ?_⟩, rfl,
    fun m _ h => ?_⟩
  · match n with
    | 0 => rfl
    | 1 => exact (execEmit_next (s := owedRun 1)).mpr ⟨⟨rfl, rfl, rfl⟩, samples, full_buffer, rfl⟩
    | _ + 2 => rfl
  · exact absurd (h (n + 2) (by omega)) (quiet a (n + 2) (by omega))
  · obtain ⟨m, hm, -, ha, -⟩ := h (n + 2) (by omega)
    exact absurd ha (quiet a m (by omega))
  · match k with
    | 0 => rfl
    | 1 => rfl
    | _ + 2 => rfl
  · match m with
    | 0 => rfl
    | 1 => rfl
    | _ + 2 => exact absurd rfl (h 1 (Nat.zero_le 1) (by omega))

end Sys2Proof.Tests
end

/-! # Proofs: the statements of 00_scope.md -/

/-! ## Where an operation is refused as not enabled, and what a scheduled move runs -/

section
namespace Sys2Proof.Machine

variable {s : State} {r : Host.Outcome State Fault Refusal}

/-- An operation that is not itself a refusal as not enabled is refused so exactly outside its precondition. -/
theorem whenEnabled_eq_notEnabled {c : Bool} (h : r ≠ .refused .notEnabled) :
    whenEnabled c r = .refused .notEnabled ↔ ¬c = true := by
  cases c <;> simp [whenEnabled, h]

theorem whenEnabled_fg_eq_notEnabled {f : Fg} (h : r ≠ .refused .notEnabled) :
    whenEnabled (s.fg == f) r = .refused .notEnabled ↔ s.fg ≠ f :=
  (whenEnabled_eq_notEnabled h).trans beq_iff_eq.not

theorem execTrigPoll_notEnabled : execTrigPoll s = .refused .notEnabled ↔ s.fg ≠ .trigWait := by
  refine whenEnabled_fg_eq_notEnabled ?_
  obtain ⟨v, n, hread, -⟩ := s.latchRead_cases
  rw [hread]
  dsimp only
  split <;> nofun

theorem execTxSettings_notEnabled {i r c : Byte} :
    execTxSettings i r c s = .refused .notEnabled ↔ s.fg = .trigWait :=
  (whenEnabled_eq_notEnabled (by split <;> nofun)).trans (bne_iff_ne.not.trans not_not)

theorem execEmit_notEnabled :
    execEmit s = .refused .notEnabled ↔ ¬(s.fg = .idle ∧ s.enabled = true ∧ s.cursor = 400#9) := by
  refine (whenEnabled_eq_notEnabled ?_).trans State.emitEnabled_iff.not
  cases s.readBuffer with
  | error k => nofun
  | ok d => dsimp only; split <;> nofun

theorem execTxData_notEnabled {d : List Byte} :
    execTxData d s = .refused .notEnabled ↔ ¬(s.fg = .idle ∧ s.enabled = true ∧ s.cursor = 400#9) := by
  refine (whenEnabled_eq_notEnabled ?_).trans State.emitEnabled_iff.not
  cases s.readBuffer with
  | error k => nofun
  | ok bytes => dsimp only; split <;> nofun

/-! What a foreground action runs (R151, R153, R157). -/

theorem State.takeAction_cmd {b : Byte} {q : List Byte} (h : s.rxq = b :: q) :
    s.takeAction .cmd = .run (decodeOpcode b) { s with rxq := q } := by
  simp [State.takeAction, State.rxRead, h]

theorem State.takeAction_param {b : Byte} {q : List Byte} (h : s.rxq = b :: q) :
    s.takeAction .param = .run (decodeParameter b) { s with rxq := q } := by
  simp [State.takeAction, State.rxRead, h]

theorem State.takeAction_loc {lop : Lop} {arg : Byte} {q : List LocalRequest} {i : Instr}
    (h : s.localq = ⟨lop, arg⟩ :: q) (hi : decodeRequest lop arg = .ok i) :
    s.takeAction .loc = .run i { s with localq := q } := by
  simp [State.takeAction, State.takeRequest, h, hi]

/-! What a step does with a scheduled move. -/

section
variable {m : Move} {prefer : FgAction} {rest : List Move} (hp : s.pausedWhileDisabled = false)
include hp

theorem step_performs (hs : s.schedule = m :: rest) :
    step s = ({ s with schedule := rest }.perform m).carryOut :=
  (step_scheduled hs).trans (stepMove_eq hp)

theorem step_foreground {a : FgAction} (hs : s.schedule = .foreground prefer :: rest)
    (ha : s.chooseAction prefer = some a) : step s = ({ s with schedule := rest }.takeAction a).carryOut := by
  have hc : { s with schedule := rest }.chooseAction prefer = some a := ha
  rw [step_performs hp hs, State.perform, hc]

theorem step_foreground_none (hs : s.schedule = .foreground prefer :: rest) (ha : s.chooseAction prefer = none) :
    step s = .next { s with schedule := rest } := by
  have hc : { s with schedule := rest }.chooseAction prefer = none := ha
  rw [step_performs hp hs, State.perform, hc]
  rfl

end

end Sys2Proof.Machine
end

/-! ## The statements -/

section
open Sys2Proof Sys2Proof.Machine

/-- Settles O46: each meaning is its operation under `whenEnabled`, and no operation is itself such a refusal. -/
theorem notEnabledExactlyOutsidePreconditions : Obligations.NotEnabledExactlyOutsidePreconditions := by
  intro i s
  cases i with
  | p | s | r | ignore | start | stop | armTrig | setRef | param => exact whenEnabled_fg_eq_notEnabled nofun
  | setChan | txStatus => exact whenEnabled_fg_eq_notEnabled (by split <;> nofun)
  | trigPoll => exact execTrigPoll_notEnabled
  | txSettings i r c => exact execTxSettings_notEnabled
  | emit => exact execEmit_notEnabled
  | txData d => exact execTxData_notEnabled
  | adcDone v => exact iff_of_false nofun id

/-- Settles O56, by induction on the list of moves: no move looks at the schedule (`stepMove_schedule`), so the two runs
stay in states that differ in it alone. -/
theorem scheduleRealisesAnyInterleaving : Obligations.ScheduleRealisesAnyInterleaving := by
  intro ms rest s
  induction ms generalizing s with
  | nil => rfl
  | cons m ms ih =>
    have hstep : step { s with schedule := m :: ms ++ rest } = reschedule (ms ++ rest) (stepMove m s) :=
      (step_scheduled rfl).trans (stepMove_schedule m (ms ++ rest) s)
    simp only [List.length_cons, runSteps, runMoves, hstep, stepMove_schedule m rest s]
    cases stepMove m s with
    | next t => exact ih t
    | fault f => rfl
    | refused r => rfl

/-- Settles O53: the scheduled move is performed in the state without it, a foreground move by taking the chosen action. -/
theorem stepRunsTheDecodedInstruction : Obligations.StepRunsTheDecodedInstruction := by
  intro rest s hp
  refine ⟨fun v i hs hi => ?event, fun prefer b q i hs ha hq hi => ?command, fun prefer b q i hs ha hq hi => ?parameter,
    fun prefer lop arg q i hs ha hq hi => ?request, fun prefer i hs ha hi => ?emission, fun prefer i hs ha hi => ?poll,
    fun prefer hs ha => step_foreground_none hp hs ha⟩
  case event =>
    cases hi
    exact step_performs hp hs
  case command =>
    cases hi
    rw [step_foreground hp hs ha, State.takeAction_cmd (s := { s with schedule := rest }) hq]
    rfl
  case parameter =>
    cases hi
    rw [step_foreground hp hs ha, State.takeAction_param (s := { s with schedule := rest }) hq]
    rfl
  case request =>
    rw [step_foreground hp hs ha, State.takeAction_loc (s := { s with schedule := rest }) hq hi]
    rfl
  case emission =>
    cases hi
    exact step_foreground hp hs ha
  case poll =>
    cases hi
    exact step_foreground hp hs ha

end

/-! # Proofs: the statements of 10_state.md -/

/-! ## The invariant of R37, one lemma for each kind of write a move makes -/

section
namespace Sys2Proof.Machine

variable {s : State}

/-- The constraints on the parameters give the two clauses that speak of the configuration registers (R9, R10). -/
theorem params_reset_in_range (p : Params) : p.dividxReset.toNat < p.entries ∧ p.chanReset.toNat ≤ 5 := by
  have h := p.accepted
  simp only [paramsAccepted, Bool.and_eq_true, decide_eq_true_eq, BitVec.le_def] at h
  exact ⟨h.1.2, h.2⟩

theorem StateInv.resetWith (p : Params) : StateInv (State.resetWith p) where
  bufferCanonical := Memory.wf_nil
  cursorInRange := Nat.zero_le 400
  pausedImpliesEnabled := nofun
  indexInTable := (params_reset_in_range p).1
  channelInSet := (params_reset_in_range p).2
  trigWaitHolds := nofun
  belowCursorWritten := nofun

section
variable (h : StateInv s)
include h

/-- The queues, the latch, the outputs, the ghosts and the model's own fields do not occur in the invariant, nor do
`INTREF` and `TRIGLVL`. -/
theorem StateInv.unconstrained {trigLvl : Byte} {intref : Bool} {rxq : List Byte} {localq : List LocalRequest}
    {latch : Latch} {auto tail : Bool} {out : List Output} {schedule : List Move} {draws : Nat} :
    StateInv { s with
      trigLvl := trigLvl, intref := intref, rxq := rxq, localq := localq, latch := latch, adcAuto := auto,
      adcTail := tail, out := out, schedule := schedule, draws := draws } where
  __ := h

theorem StateInv.leaveTrigWait {f : Fg} (hf : f ≠ .trigWait) : StateInv { s with fg := f } where
  __ := h
  trigWaitHolds := fun hw => absurd hw hf

theorem StateInv.enterTrigWait (htm : s.trigMode = true) (hc : s.cursor = 400#9) (he : s.enabled = true) :
    StateInv { s with fg := .trigWait } where
  __ := h
  trigWaitHolds := fun _ => ⟨htm, hc, he⟩

theorem StateInv.setTrigMode : StateInv { s with trigMode := true } where
  __ := h
  trigWaitHolds := fun hw => ⟨rfl, (h.trigWaitHolds hw).2⟩

theorem StateInv.setDividx {idx : Byte} (hi : idx.toNat < s.params.entries) : StateInv { s with dividx := idx } where
  __ := h
  indexInTable := hi

theorem StateInv.setChan {ch : Byte} (hc : ch.toNat ≤ 5) : StateInv { s with chan := channelOf ch } where
  __ := h
  channelInSet := by
    simp only [channelOf, BitVec.toNat_ofNat]
    omega

theorem StateInv.setFlags {enabled paused : Bool} (hf : s.fg ≠ .trigWait) (hp : paused = true → enabled = true) :
    StateInv { s with enabled := enabled, paused := paused } where
  __ := h
  pausedImpliesEnabled := hp
  trigWaitHolds := fun hw => absurd hw hf

theorem StateInv.zeroCursor (hf : s.fg ≠ .trigWait) : StateInv { s with cursor := 0#9 } where
  __ := h
  cursorInRange := Nat.zero_le 400
  trigWaitHolds := fun hw => absurd hw hf
  belowCursorWritten := nofun

/-- A stored sample: in `TrigWait` the cursor is at 400, so nothing is stored there. -/
theorem StateInv.store {v : Byte} (hc : s.cursor.toNat < 400) : StateInv (s.storeSample v) where
  __ := h
  bufferCanonical := Memory.wf_write v h.bufferCanonical hc
  cursorInRange := by
    rw [State.storeSample_cursor, cursor_succ hc]
    exact hc
  trigWaitHolds := fun hw => by
    obtain ⟨-, hfull, -⟩ := h.trigWaitHolds hw
    rw [hfull] at hc
    exact absurd hc (by decide)
  belowCursorWritten := fun k hk => by
    rw [State.storeSample_cursor, cursor_succ hc] at hk
    rw [State.storeSample_buf]
    by_cases hkc : k = s.cursor.toNat
    · exact ⟨v, hkc ▸ Memory.read_write_same s.buf k v⟩
    · rw [Memory.read_write_ne s.buf v hkc]
      exact h.belowCursorWritten k (by omega)

end

/-! ## What every move keeps, and how a step is a move -/

/-- A step is some move, made in a state that differs in the model's own fields alone. -/
theorem exists_stepMove_of_step {t : State} (h : step s = .next t) :
    ∃ m schedule draws, stepMove m { s with schedule := schedule, draws := draws } = .next t := by
  rw [step_eq_stepMove, State.nextMove] at h
  split at h
  · exact ⟨_, _, s.draws, h⟩
  · exact ⟨_, s.schedule, _, h⟩

variable {m : Move} {t : State}

theorem stepMove_keeps_inv (h : StateInv s) (hm : stepMove m s = .next t) : StateInv t := by
  have notWaiting {f : Fg} (hs : s.fg = f) (hf : f ≠ .trigWait) : s.fg ≠ .trigWait := hs ▸ hf
  cases stepMove_effect hm with
  | polling _ _ _ ht => exact ht ▸ h
  | reset _ _ _ ht => exact ht ▸ (StateInv.resetWith s.params).unconstrained
  | stored _ _ _ hc ht => exact ht ▸ (h.store hc).unconstrained
  | paramAwaited _ _ _ _ _ ht => exact ht ▸ (h.leaveTrigWait (f := .waitParam) nofun).unconstrained
  | dividerSet _ _ _ _ _ _ hi ht => exact ht ▸ ((h.leaveTrigWait (f := .idle) nofun).setDividx hi).unconstrained
  | dividerRejected _ _ _ _ _ _ _ ht => exact ht ▸ (h.leaveTrigWait (f := .idle) nofun).unconstrained
  | toggledOff _ _ _ hf _ _ ht => exact ht ▸ (h.setFlags (paused := false) (notWaiting hf nofun) nofun).unconstrained
  | toggledOn _ _ _ hf _ _ ht | started _ _ _ _ hf _ _ ht =>
    have hw := notWaiting hf nofun
    exact ht ▸ ((h.zeroCursor hw).setFlags hw fun _ => rfl).unconstrained
  | stopped _ _ _ _ hf _ _ ht => exact ht ▸ (h.setFlags (notWaiting hf nofun) id).unconstrained
  | armed _ _ _ _ _ _ _ ht => exact ht ▸ h.setTrigMode.unconstrained
  | channelSet _ _ _ _ _ _ _ hc ht => exact ht ▸ (h.setChan hc).unconstrained
  | emitted _ _ _ hf _ _ _ _ ht => exact ht ▸ (h.zeroCursor (notWaiting hf nofun)).unconstrained
  | emittedThenWait _ _ _ _ he hc _ htm ht => exact ht ▸ (h.enterTrigWait htm hc he).unconstrained
  | waitEnds _ _ _ _ _ _ _ ht => exact ht ▸ ((h.leaveTrigWait (f := .idle) nofun).zeroCursor nofun).unconstrained
  | lost _ _ _ ht | deliver _ _ ht | setLatch _ _ ht | post _ _ _ ht | queried _ _ _ _ _ ht
  | ignored _ _ _ _ _ _ _ ht | discarded _ _ _ _ _ _ ht | referenceSet _ _ _ _ _ _ _ ht
  | waitGoesOn _ _ _ _ _ _ _ ht => exact ht ▸ h.unconstrained

theorem stepMove_params (h : stepMove m s = .next t) : t.params = s.params := by
  cases stepMove_effect h <;> subst_vars <;> rfl

/-- No move but a reset clears `TRIGMODE` (R26). -/
theorem stepMove_trigMode_of_set (hr : isReset m = false) (htm : s.trigMode = true) (h : stepMove m s = .next t) :
    t.trigMode = true := by
  cases stepMove_effect h with
  | reset _ _ hm => subst hm; cases hr
  | armed => subst_vars; rfl
  | _ => subst_vars; exact htm

/-! ## The latch and the emission -/

theorem State.latchRead_paused (p : Bool) (s : State) :
    { s with paused := p }.latchRead = (s.latchRead.1, { s.latchRead.2 with paused := p }) := by
  cases hl : s.latch with
  | undetermined => simp [State.latchRead, hl]
  | holds v => simp [State.latchRead, hl]

theorem State.readBuffer_error_iff {k : Nat} : s.readBuffer = .error k ↔
    k < 400 ∧ Memory.read s.buf k = none ∧ ∀ j, j < k → Memory.read s.buf j ≠ none := by
  simp [State.readBuffer, Memory.readFrom_error_iff, capacity]

theorem execEmit_fault {k : Nat} : execEmit s = .fault (.unwrittenCell k) ↔
    (s.fg = .idle ∧ s.enabled = true ∧ s.cursor = 400#9) ∧ s.readBuffer = .error k := by
  unfold execEmit
  rw [whenEnabled_eq_fault, State.emitEnabled_iff]
  refine and_congr_right fun _ => ?_
  cases s.readBuffer with
  | error j => simp
  | ok d => dsimp only; split <;> simp

end Sys2Proof.Machine
end

/-! ## The statements -/

section
open Sys2Proof Sys2Proof.Machine

/-- Settles O58: a step is a move, and every move keeps the invariant (`stepMove_keeps_inv`). -/
theorem invariantKeptByEveryStep : Obligations.InvariantKeptByEveryStep := by
  intro s t hinv hstep
  obtain ⟨m, schedule, draws, h⟩ := exists_stepMove_of_step hstep
  exact stepMove_keeps_inv hinv.unconstrained h

/-- Settles O21. An emission begins in `Idle`, so that afterwards `FG` shows what it has read in `TRIGMODE`. -/
theorem triggerModeStaysOn : Obligations.TriggerModeStaysOn := by
  refine ⟨fun level s hf => ⟨_, execArmTrig_next.mpr ⟨hf, rfl⟩, rfl⟩, fun m s t => stepMove_trigMode_of_set,
    fun keepRx keepLocal s t h => ?reset, fun s t h => ?emission⟩
  case reset =>
    cases stepMove_effect h with
    | reset _ _ _ ht => rw [ht]; rfl
    | _ => contradiction
  case emission =>
    obtain ⟨⟨hf, -, -⟩, d, -, rfl⟩ := execEmit_next.mp h
    by_cases htm : s.trigMode = true
    · simp [htm]
    · simp [htm, hf]

/-- Settles O35: the sequential read stops at the first cell that holds nothing. -/
theorem emitFaultsOnUnwrittenCell : Obligations.EmitFaultsOnUnwrittenCell := by
  intro k s hf he hc hk hnone hbelow
  refine execEmit_fault.mpr ⟨⟨hf, he, hc⟩, State.readBuffer_error_iff.mpr ⟨hk, hnone, fun j hj hj' => ?_⟩⟩
  obtain ⟨b, hb⟩ := hbelow j hj
  rw [hb] at hj'
  cases hj'

/-- Settles O41: by the ways a move takes one state to the next; four foreground operations set the cursor to 0. -/
theorem cursorWriters : Obligations.CursorWriters := by
  intro m s t hr h
  cases stepMove_effect h with
  | reset _ _ hm => subst hm; cases hr
  | stored v hm he hc ht => exact .inr (.inl ⟨v, hm, he, hc, by rw [ht]; exact cursor_succ hc⟩)
  | toggledOn prefer _ hm | started prefer _ _ hm | emitted prefer _ hm | waitEnds prefer _ _ hm =>
    subst_vars
    exact .inr (.inr ⟨prefer, rfl, rfl⟩)
  | _ => subst_vars; exact .inl rfl

/-- Settles O43: no move writes the parameters (`stepMove_params`). -/
theorem parametersAreReadOnly : Obligations.ParametersAreReadOnly := by
  intro s t hstep
  obtain ⟨m, schedule, draws, h⟩ := exists_stepMove_of_step hstep
  exact (stepMove_params h :)

/-- Settles O52, by the instructions: what each needs, and the next state it answers, is said without `PAUSED`. -/
theorem pausedIsReadOnlyByTheStatusFrame : Obligations.PausedIsReadOnlyByTheStatusFrame := by
  intro i p s t hstop hstatus hstart hs h
  cases i with
  | stop => exact absurd rfl hstop
  | start => exact absurd rfl hstart
  | s => exact absurd rfl hs
  | txStatus e q => exact absurd rfl (hstatus e q)
  | p | r | ignore | armTrig | setRef =>
    obtain ⟨hf, ⟨⟩⟩ := whenEnabled_eq_next.mp h
    exact whenEnabled_eq_next.mpr ⟨hf, rfl⟩
  | param idx =>
    obtain ⟨hf, rfl⟩ := execParam_next.mp h
    exact execParam_next.mpr ⟨hf, by dsimp only; split <;> rfl⟩
  | setChan ch =>
    obtain ⟨hf, rfl⟩ := execSetChan_next.mp h
    exact execSetChan_next.mpr ⟨hf, by dsimp only; split <;> rfl⟩
  | adcDone v =>
    obtain rfl := execAdcDone_next.mp h
    exact execAdcDone_next.mpr (by dsimp only; split <;> rfl)
  | emit =>
    obtain ⟨hen, d, hd, rfl⟩ := execEmit_next.mp h
    exact execEmit_next.mpr ⟨hen, d, hd, by dsimp only; split <;> rfl⟩
  | trigPoll =>
    obtain ⟨hf, v, n, hread, rfl⟩ := execTrigPoll_next.mp h
    exact execTrigPoll_next.mpr ⟨hf, v, n, by rw [State.latchRead_paused, hread], by dsimp only; split <;> rfl⟩
  | txData d =>
    obtain ⟨hen, hd, rfl⟩ := execTxData_next.mp h
    exact execTxData_next.mpr ⟨hen, hd, rfl⟩
  | txSettings i r c =>
    obtain ⟨hf, hfields, rfl⟩ := execTxSettings_next.mp h
    exact execTxSettings_next.mpr ⟨hf, hfields, rfl⟩

/-- Settles O7. -/
theorem resetStateAsListed : Obligations.ResetStateAsListed :=
  ⟨rfl, rfl, rfl, rfl, rfl, rfl, rfl, rfl, fun _ => rfl, rfl, rfl, rfl⟩

/-- Settles O8: the device's parameters come with the proof that they meet R9 and R10; no call has been made. -/
theorem invariantsHoldAtReset : Obligations.InvariantsHoldAtReset := ⟨StateInv.resetWith Config.device, rfl⟩

/-- Settles O57. -/
theorem pausedWhileDisabledIsRefused : Obligations.PausedWhileDisabledIsRefused := by
  intro m s he hp hr
  have hpair : s.pausedWhileDisabled = true := by simp [State.pausedWhileDisabled, he, hp]
  simp [stepMove, State.fetchMove, hpair, hr, Fetched.carryOut]

end

/-! # Proofs: the statements of 20_memory.md -/

/-! ## From the invariant every move has a next state -/

section
namespace Sys2Proof.Machine

variable {s : State}

/-- R54: where the invariant holds, a full buffer is read whole. -/
theorem StateInv.readBuffer_of_full (h : StateInv s) (hc : s.cursor = 400#9) : ∃ d, s.readBuffer = .ok d :=
  Memory.readFrom_of_written s.buf 0 capacity fun k _ hk =>
    h.belowCursorWritten k (by rw [hc]; simpa [capacity] using hk)

theorem StateInv.not_pausedWhileDisabled (h : StateInv s) : s.pausedWhileDisabled = false :=
  State.pausedWhileDisabled_eq_false.mpr h.pausedImpliesEnabled

theorem StateInv.nextMove (h : StateInv s) : StateInv s.nextMove.2 := by
  unfold State.nextMove
  split <;> exact h.unconstrained

/-- In `Idle` whatever a byte in opcode position decodes to has a next state. -/
theorem exists_exec_decodeOpcode (b : Byte) (hf : s.fg = .idle) : ∃ t, exec (decodeOpcode b) s = .next t := by
  rcases decodeOpcode_cases b with ⟨-, hd⟩ | ⟨-, hd⟩ | ⟨-, hd⟩ | ⟨-, hd⟩ <;> rw [hd]
  · exact ⟨_, execP_next.mpr ⟨hf, rfl⟩⟩
  · exact ⟨_, execS_next.mpr ⟨hf, rfl⟩⟩
  · exact ⟨_, execR_next.mpr ⟨hf, rfl⟩⟩
  · exact ⟨_, (execIgnore_next (b := b)).mpr ⟨hf, rfl⟩⟩

/-- In `Idle` whatever a local request decodes to has a next state. -/
theorem exists_exec_decodeRequest {lop : Lop} {arg : Byte} {i : Instr} (hi : decodeRequest lop arg = .ok i)
    (hf : s.fg = .idle) : ∃ t, exec i s = .next t := by
  rcases decodeRequest_cases hi with ⟨-, rfl⟩ | ⟨-, rfl⟩ | ⟨-, rfl⟩ | ⟨-, rfl⟩ | ⟨-, rfl⟩
  · exact ⟨_, execStart_next.mpr ⟨hf, rfl⟩⟩
  · exact ⟨_, execStop_next.mpr ⟨hf, rfl⟩⟩
  · exact ⟨_, execArmTrig_next.mpr ⟨hf, rfl⟩⟩
  · exact ⟨_, execSetChan_next.mpr ⟨hf, rfl⟩⟩
  · exact ⟨_, execSetRef_next.mpr ⟨hf, rfl⟩⟩

/-- An enabled action has a next state; only the emission needs the invariant for it. -/
theorem StateInv.exists_takeAction (h : StateInv s) {a : FgAction} (ha : a ∈ s.enabledActions) :
    ∃ t, (s.takeAction a).carryOut = .next t := by
  have hen := State.mem_enabledActions.mp ha
  cases a with
  | cmd =>
    obtain ⟨b, q, hq⟩ := List.exists_cons_of_ne_nil hen.2
    rw [State.takeAction_cmd hq]
    exact exists_exec_decodeOpcode b hen.1
  | param =>
    obtain ⟨b, q, hq⟩ := List.exists_cons_of_ne_nil hen.2
    rw [State.takeAction_param hq]
    exact ⟨_, execParam_next.mpr ⟨hen.1, rfl⟩⟩
  | loc =>
    obtain ⟨r, q, hq⟩ := List.exists_cons_of_ne_nil hen.2
    cases hi : decodeRequest r.lop r.arg with
    | ok i =>
      rw [State.takeAction_loc hq hi]
      exact exists_exec_decodeRequest hi hen.1
    | error e =>
      exact ⟨{ s with localq := q }, by simp [State.takeAction, State.takeRequest, hq, hi, Fetched.carryOut]⟩
  | emit =>
    obtain ⟨d, hd⟩ := h.readBuffer_of_full hen.2.2
    exact ⟨_, execEmit_next.mpr ⟨hen, d, hd, rfl⟩⟩
  | poll =>
    obtain ⟨v, n, hread, -⟩ := s.latchRead_cases
    exact ⟨_, execTrigPoll_next.mpr ⟨hen, v, n, hread, rfl⟩⟩

theorem StateInv.exists_stepMove (h : StateInv s) (m : Move) : ∃ t, stepMove m s = .next t := by
  rw [stepMove_eq h.not_pausedWhileDisabled]
  cases m with
  | convert | deliver | setLatch | post | reset => exact ⟨_, rfl⟩
  | foreground prefer =>
    rw [State.perform]
    cases hc : s.chooseAction prefer with
    | none => exact ⟨s, rfl⟩
    | some a => exact h.exists_takeAction (State.chooseAction_mem hc)

/-! ## The handler against the foreground -/

/-- The instruction neither reads nor writes `BUF` and `CURSOR`, the two things the handler writes, and does not write
`ENABLED`, which the handler reads (R188). -/
def ApartFromHandler (i : Instr) : Prop :=
  ∀ s t : State, exec i s = .next t → t.enabled = s.enabled ∧
    ∀ buf cursor, exec i { s with buf := buf, cursor := cursor } = .next { t with buf := buf, cursor := cursor }

/-- The handler before or after such an instruction: the same next state. -/
theorem ApartFromHandler.commutes {i : Instr} (hi : ApartFromHandler i) {v : Byte} {t u : State}
    (ht : exec i s = .next t) (hu : exec (.adcDone v) s = .next u) :
    ∃ w, exec (.adcDone v) t = .next w ∧ exec i u = .next w := by
  obtain ⟨henabled, hrun⟩ := hi s t ht
  have hkept : t = { t with buf := s.buf, cursor := s.cursor } :=
    Host.Outcome.next.inj (ht.symm.trans (hrun s.buf s.cursor))
  have hbuf : t.buf = s.buf := (congrArg State.buf hkept :)
  have hcursor : t.cursor = s.cursor := (congrArg State.cursor hkept :)
  obtain rfl := execAdcDone_next.mp hu
  refine ⟨_, execAdcDone_next.mpr rfl, ?_⟩
  rw [henabled, hcursor]
  split
  · rw [State.storeSample, State.storeSample, hbuf, hcursor]
    exact hrun _ _
  · exact ht

end Sys2Proof.Machine
end

/-! ## The statements -/

section
open Sys2Proof Sys2Proof.Machine

/-- Settles O59: the invariant rules out the refused flag pair, every enabled action has a next state
(`StateInv.exists_takeAction`), and every move keeps the invariant. -/
theorem stepNeverStops : Obligations.StepNeverStops := by
  intro s h
  refine ⟨?_, fun m => ?_⟩
  · rw [step_eq_stepMove]
    exact h.nextMove.exists_stepMove _
  · obtain ⟨t, ht⟩ := h.exists_stepMove m
    exact ⟨t, ht, stepMove_keeps_inv h ht⟩

/-- Settles O42: by the ways a move takes one state to the next, of which only the stored conversion changes `BUF`. -/
theorem bufferWriters : Obligations.BufferWriters := by
  intro m s t hr h k hk
  cases stepMove_effect h with
  | reset _ _ hm => subst hm; cases hr
  | stored v hm he hc ht =>
    subst ht
    have hcell : k = s.cursor.toNat := by
      by_contra hne
      exact hk (Memory.read_write_ne s.buf v hne)
    exact ⟨v, hm, hcell, hcell ▸ hc, he, hcell ▸ Memory.read_write_same s.buf k v⟩
  | _ => subst_vars; exact absurd rfl hk

/-- Settles O50: each of the eight is apart from the handler, and such an instruction commutes with it. -/
theorem handlerCommutesWithForeground : Obligations.HandlerCommutesWithForeground := by
  intro v i s t u hi ht hu
  refine ApartFromHandler.commutes (fun s t h => ?_) ht hu
  cases i with
  | p | r | stop | ignore | armTrig | setRef =>
    obtain ⟨hf, ⟨⟩⟩ := whenEnabled_eq_next.mp h
    exact ⟨rfl, fun buf cursor => whenEnabled_eq_next.mpr ⟨hf, rfl⟩⟩
  | setChan ch =>
    obtain ⟨hf, rfl⟩ := execSetChan_next.mp h
    exact ⟨by split <;> rfl, fun buf cursor => execSetChan_next.mpr ⟨hf, by split <;> rfl⟩⟩
  | param idx =>
    obtain ⟨hf, rfl⟩ := execParam_next.mp h
    exact ⟨by split <;> rfl, fun buf cursor => execParam_next.mpr ⟨hf, by dsimp only; split <;> rfl⟩⟩
  | _ => simp at hi

/-- Settles O51: once START has zeroed `CURSOR`, all that is left of the handler is the cell it wrote at the old one. -/
theorem handlerInsideStartIsInvisible : Obligations.HandlerInsideStartIsInvisible := by
  intro v s t hf h
  refine ⟨s.startOp, execStart_next.mpr ⟨hf, rfl⟩, ?_⟩
  obtain rfl := execAdcDone_next.mp h
  split
  · exact ⟨rfl, fun k hk => Memory.read_write_ne s.buf v hk⟩
  · exact ⟨rfl, fun k _ => rfl⟩

end

/-! # Proofs: the statements of 30_encoding.md -/

/-! ## What a code that decodes is, and the command stream one command at a time -/

section
namespace Sys2Proof

/-- What a frame decodes to is well-formed, and the bytes are its code. -/
theorem decodeFrame_sound {bytes : List Byte} {i : Instr} (h : decodeFrame bytes = .ok i) :
    WellFormed i = true ∧ encode i = .frame bytes := by
  unfold decodeFrame at h
  split at h
  · split at h
    · rename_i he hp
      split at h
      · rename_i hw
        obtain ⟨rfl, hw⟩ := hw
        cases h
        rw [decodeFlag_eq_some he, decodeFlag_eq_some hp]
        exact ⟨hw, rfl⟩
      · cases h
    · cases h
  · split at h
    · rename_i hw
      obtain ⟨rfl, hw⟩ := hw
      cases h
      exact ⟨hw, rfl⟩
    · cases h
  · rename_i rest _ _
    dsimp only at h
    split at h
    · rename_i hw
      obtain ⟨rfl, rfl, hw, hend⟩ := hw
      cases h
      have hrest : rest.take capacity ++ [0x55#8, 0xEE#8] = rest := by rw [← hend, List.take_append_drop]
      exact ⟨hw, congrArg (fun r => Code.frame (0xFF#8 :: 0xAA#8 :: r)) hrest⟩
    · cases h
  · cases h

/-- What a local request decodes to is well-formed, and its code has the same operation code. -/
theorem decodeRequest_sound {lop : Lop} {arg : Byte} {i : Instr} (h : decodeRequest lop arg = .ok i) :
    WellFormed i = true ∧ ∃ arg', encode i = .request lop arg' := by
  rcases Machine.decodeRequest_cases h with ⟨rfl, rfl⟩ | ⟨rfl, rfl⟩ | ⟨rfl, rfl⟩ | ⟨rfl, rfl⟩ | ⟨rfl, rfl⟩ <;>
    exact ⟨rfl, _, rfl⟩

theorem decodeRequest_unassigned {lop : Lop} (arg : Byte) (h : lop ∉ [0x0#4, 0x1#4, 0x3#4, 0x4#4, 0x6#4]) :
    decodeRequest lop arg = .error (.unassignedLop lop) := by
  simp only [List.mem_cons, List.not_mem_nil, or_false, not_or] at h
  obtain ⟨h0, h1, h3, h4, h6⟩ := h
  simp [decodeRequest, h0, h1, h3, h4, h6]

theorem decodeOpcode_eq_ignore_iff (b : Byte) : decodeOpcode b = .ignore b ↔ isOpcode b = false := by
  refine ⟨fun h => ?_, decodeOpcode_ignore⟩
  have hw := (decodeOpcode_sound b).1
  simpa [h, WellFormed] using hw

theorem isOpcode_eq_false_iff (b : Byte) : isOpcode b = false ↔ b ≠ 0x50#8 ∧ b ≠ 0x52#8 ∧ b ≠ 0x53#8 := by
  rw [← Bool.not_eq_true, isOpcode_iff]
  tauto

theorem ok_of_toOption_eq_some {r : Except Reject Instr} {i : Instr} (h : r.toOption = some i) : r = .ok i := by
  cases r with
  | ok j => exact congrArg Except.ok (Option.some.inj h)
  | error e => cases h

/-- A table word is read as a byte in opcode position, as a local request or as a frame. -/
theorem decodeTableWord_cases {nbits w : Nat} {i : Instr} (h : decodeTableWord nbits w = some i) :
    (∃ b, decodeOpcode b = i) ∨ (∃ lop arg, decodeRequest lop arg = .ok i) ∨ ∃ bytes, decodeFrame bytes = .ok i := by
  unfold decodeTableWord at h
  split at h
  · dsimp only at h
    split at h
    · exact .inl ⟨_, Option.some.inj h⟩
    · split at h
      · split at h
        · rename_i hr
          exact .inr (.inl ⟨_, _, Option.some.inj h ▸ hr⟩)
        · exact .inl ⟨_, Option.some.inj h⟩
      · exact .inl ⟨_, Option.some.inj h⟩
  · split at h
    · dsimp only at h
      split at h
      · exact .inl ⟨0x50#8, Option.some.inj h⟩
      · split at h
        · exact .inr (.inl ⟨_, _, ok_of_toOption_eq_some h⟩)
        · cases h
    · split at h
      · exact .inr (.inr ⟨_, ok_of_toOption_eq_some h⟩)
      · cases h

/-- The first command of a stream is read back, and the reader is then in opcode position again (R82, R86). -/
theorem decodeStream_command {c : Command} (hc : c.wellFormed = true) (rest : List Byte) :
    decodeStream false (c.bytes ++ rest) = c.instrs ++ decodeStream false rest := by
  cases c with
  | setDivider idx | toggle | query => rfl
  | other b =>
    have hb : isOpcode b = false := by simpa [Command.wellFormed] using hc
    obtain ⟨hp, -, -⟩ := (isOpcode_eq_false_iff b).mp hb
    simp [Command.bytes, Command.instrs, decodeStream, decodeOpcode_ignore hb, commandLength, hp]

/-- The commands whose instructions these are, one per byte read: the left inverse of `Command.instrs`. -/
def commandsOf : List Instr → List Command
  | .p :: .param idx :: rest => .setDivider idx :: commandsOf rest
  | .s :: rest => .toggle :: commandsOf rest
  | .r :: rest => .query :: commandsOf rest
  | .ignore b :: rest => .other b :: commandsOf rest
  | _ => []

theorem commandsOf_instrs_append (c : Command) (rest : List Instr) :
    commandsOf (c.instrs ++ rest) = c :: commandsOf rest := by
  cases c <;> rfl

theorem commandsOf_flatMap_instrs (cs : List Command) : commandsOf (cs.flatMap Command.instrs) = cs := by
  induction cs with
  | nil => rfl
  | cons c cs ih => rw [List.flatMap_cons, commandsOf_instrs_append, ih]

/-- The bytes of well-formed commands, possibly followed by a `P` whose parameter has not come (R82, R84). -/
def IsCommandStream (bytes : List Byte) : Prop :=
  ∃ cs : List Command, (∀ c ∈ cs, c.wellFormed = true) ∧
    (bytes = cs.flatMap Command.bytes ∨ bytes = cs.flatMap Command.bytes ++ [0x50#8])

theorem IsCommandStream.cons {c : Command} {bytes : List Byte} (hc : c.wellFormed = true) (h : IsCommandStream bytes) :
    IsCommandStream (c.bytes ++ bytes) := by
  obtain ⟨cs, hcs, hbytes⟩ := h
  refine ⟨c :: cs, List.forall_mem_cons.mpr ⟨hc, hcs⟩, ?_⟩
  rcases hbytes with rfl | rfl
  · exact .inl rfl
  · exact .inr (by simp)

/-- A byte other than `P` in opcode position is a whole command. -/
theorem exists_command_of_byte {b : Byte} (h : b ≠ 0x50#8) : ∃ c : Command, c.wellFormed = true ∧ c.bytes = [b] := by
  rcases Machine.decodeOpcode_cases b with ⟨hb, -⟩ | ⟨rfl, -⟩ | ⟨rfl, -⟩ | ⟨hb, -⟩
  · exact absurd hb h
  · exact ⟨.toggle, rfl, rfl⟩
  · exact ⟨.query, rfl, rfl⟩
  · exact ⟨.other b, by simp [Command.wellFormed, hb], rfl⟩

/-- Every stream is one, read from opcode position as it is and from parameter position after the `P` that led there. -/
theorem isCommandStream_of_bytes (bytes : List Byte) :
    IsCommandStream bytes ∧ IsCommandStream (0x50#8 :: bytes) := by
  induction bytes with
  | nil => exact ⟨⟨[], nofun, .inl rfl⟩, ⟨[], nofun, .inr rfl⟩⟩
  | cons b rest ih =>
    obtain ⟨hopcode, hparam⟩ := ih
    refine ⟨?_, hopcode.cons (c := .setDivider b) rfl⟩
    by_cases hb : b = 0x50#8
    · exact hb ▸ hparam
    · obtain ⟨c, hc, hbytes⟩ := exists_command_of_byte hb
      have h := hopcode.cons hc
      rwa [hbytes] at h

end Sys2Proof
end

/-! ## What the moves and steps of this family do -/

section
namespace Sys2Proof.Machine

variable {s t : State}

/-! Runs, one move or step at a time. -/

theorem runMoves_cons {m : Move} {ms : List Move} (h : stepMove m s = .next t) : runMoves (m :: ms) s = runMoves ms t := by
  rw [runMoves, h]

theorem runSteps_succ {n : Nat} (h : step s = .next t) : runSteps (n + 1) s = runSteps n t := by
  rw [runSteps, h]

theorem runMoves_append {ms ns : List Move} (h : runMoves ms s = .next t) : runMoves (ms ++ ns) s = runMoves ns t := by
  induction ms generalizing s with
  | nil =>
    cases h
    rfl
  | cons m ms ih =>
    cases hm : stepMove m s with
    | next u =>
      rw [runMoves_cons hm] at h
      rw [List.cons_append, runMoves_cons hm, ih h]
    | fault f => rw [runMoves, hm] at h; cases h
    | refused r => rw [runMoves, hm] at h; cases h

/-! The conversions: the first samples that fit fill the buffer, the others are lost (R112, R115). -/

theorem State.collected_length {d : List Byte} (h : s.collected = .ok d) : d.length = s.cursor.toNat :=
  ((Memory.readFrom_ok_iff s.buf 0 s.cursor.toNat d).mp h).1

theorem State.pausedWhileDisabled_of_enabled (h : s.enabled = true) : s.pausedWhileDisabled = false :=
  State.pausedWhileDisabled_eq_false.mpr fun _ => h

theorem take_take_append {α : Type} (n : Nat) (a b : List α) : (a.take n ++ b).take n = (a ++ b).take n := by
  have hrest : n - min n a.length = n - a.length := by omega
  rw [List.take_append, List.take_append, List.take_take, Nat.min_self, List.length_take, hrest]

theorem stepMove_convert_collects {d : List Byte} (v : Byte) (he : s.enabled = true) (hd : s.collected = .ok d)
    (hlen : d.length ≤ 400) :
    ∃ buf cursor tail, stepMove (.convert v) s = .next { s with buf := buf, cursor := cursor, adcTail := tail } ∧
      Memory.readFrom buf 0 cursor.toNat = .ok ((d ++ [v]).take 400) := by
  have hcount := State.collected_length hd
  have hmove : stepMove (.convert v) s = exec (.adcDone v) s.enterHandler :=
    stepMove_eq (State.pausedWhileDisabled_of_enabled he)
  rw [hmove]
  by_cases hc : s.cursor.toNat < 400
  · refine ⟨Memory.write s.buf s.cursor.toNat v, s.cursor + 1#9, s.adcAuto && s.adcTail,
      execAdcDone_next.mpr (if_pos ⟨he, hc⟩), ?_⟩
    rw [cursor_succ hc, Memory.readFrom_write_next v hd, List.take_of_length_le]
    simp only [List.length_append, List.length_singleton]
    omega
  · refine ⟨s.buf, s.cursor, s.adcAuto && s.adcTail, execAdcDone_next.mpr (if_neg fun h => hc h.2), ?_⟩
    rw [List.take_left' (by omega)]
    exact hd

theorem runMoves_converts_collect {d : List Byte} (vs : List Byte) (he : s.enabled = true) (hd : s.collected = .ok d)
    (hlen : d.length ≤ 400) :
    ∃ buf cursor tail, runMoves (vs.map .convert) s = .next { s with buf := buf, cursor := cursor, adcTail := tail } ∧
      Memory.readFrom buf 0 cursor.toNat = .ok ((d ++ vs).take 400) := by
  induction vs generalizing s d with
  | nil => exact ⟨s.buf, s.cursor, s.adcTail, rfl, by rw [List.append_nil, List.take_of_length_le hlen]; exact hd⟩
  | cons v vs ih =>
    obtain ⟨buf, cursor, tail, hmove, hcollected⟩ := stepMove_convert_collects v he hd hlen
    obtain ⟨buf', cursor', tail', hmoves, hcollected'⟩ :=
      ih (s := { s with buf := buf, cursor := cursor, adcTail := tail }) he hcollected (List.length_take_le 400 _)
    refine ⟨buf', cursor', tail', (runMoves_cons hmove).trans hmoves, hcollected'.trans (congrArg Except.ok ?_)⟩
    rw [take_take_append, List.append_cons d v vs]

/-! The foreground moves. -/

theorem step_command {prefer : FgAction} {rest : List Move} {b : Byte} {q : List Byte}
    (hs : s.schedule = .foreground prefer :: rest) (hp : s.pausedWhileDisabled = false) (hf : s.fg = .idle)
    (hq : s.rxq = b :: q) (hl : s.localq = []) (hc : s.collectible = false) :
    step s = exec (decodeOpcode b) { s with schedule := rest, rxq := q } :=
  (step_scheduled hs).trans (stepMove_command (s := { s with schedule := rest }) hp hf hq hl hc)

theorem step_parameter {prefer : FgAction} {rest : List Move} {b : Byte} {q : List Byte}
    (hs : s.schedule = .foreground prefer :: rest) (hp : s.pausedWhileDisabled = false) (hf : s.fg = .waitParam)
    (hq : s.rxq = b :: q) : step s = exec (.param b) { s with schedule := rest, rxq := q } :=
  (step_scheduled hs).trans (stepMove_parameter (s := { s with schedule := rest }) hp hf hq)

theorem State.takeAction_loc_unassigned {lop : Lop} {arg : Byte} {q : List LocalRequest}
    (hlop : lop ∉ [0x0#4, 0x1#4, 0x3#4, 0x4#4, 0x6#4]) (h : s.localq = ⟨lop, arg⟩ :: q) :
    s.takeAction .loc = .quiet { s with localq := q } := by
  simp [State.takeAction, State.takeRequest, h, decodeRequest_unassigned arg hlop]

theorem State.readBuffer_ok_iff {d : List Byte} : s.readBuffer = .ok d ↔
    d.length = 400 ∧ ∀ k (h : k < d.length), Memory.read s.buf k = some d[k] := by
  simp [State.readBuffer, Memory.readFrom_ok_iff, capacity]

/-- With nothing else to serve, a full buffer is sent as one data frame and nothing is called; then the cursor is 0, or the
trigger wait begins. -/
theorem exists_stepMove_emission {d : List Byte} (prefer : FgAction) (hf : s.fg = .idle) (he : s.enabled = true)
    (hc : s.cursor = 400#9) (hq : s.rxq = []) (hl : s.localq = []) (hd : s.readBuffer = .ok d) :
    ∃ t, stepMove (.foreground prefer) s = .next t ∧ t.txlog = s.txlog ++ dataBytes d ∧ t.plog = s.plog ∧
      t.schedule = s.schedule ∧ (s.trigMode = false → t.cursor = 0#9 ∧ t.fg = .idle) ∧
      (s.trigMode = true → t.cursor = 400#9 ∧ t.fg = .trigWait) := by
  have hcol : s.collectible = true := by simp [State.collectible, State.full, he, hc]
  rw [stepMove_single (State.pausedWhileDisabled_of_enabled he) (State.enabledActions_emission hf hq hl hcol)]
  refine ⟨_, execEmit_next.mpr ⟨⟨hf, he, hc⟩, d, hd, rfl⟩, ?_⟩
  cases htm : s.trigMode with
  | true => simp [State.txlog, State.plog, hc]
  | false => simp [State.txlog, State.plog, hf]

/-! Placed words (log entry 7). -/

theorem State.placeInstr_of_decodeOpcode {b : Byte} {i : Instr} (h : decodeOpcode b = i) (operand : Byte) (s : State) :
    ∃ bytes, s.placeInstr i operand = s.placeCommand (b :: bytes) := by
  subst h
  rcases decodeOpcode_cases b with ⟨rfl, hd⟩ | ⟨rfl, hd⟩ | ⟨rfl, hd⟩ | ⟨-, hd⟩ <;> rw [hd] <;> exact ⟨_, rfl⟩

/-- The placed request has the operation's own code; its argument may differ in bits the operation ignores. -/
theorem State.placeInstr_of_decodeRequest {lop : Lop} {arg : Byte} {i : Instr} (h : decodeRequest lop arg = .ok i)
    (operand : Byte) (s : State) :
    ∃ arg', decodeRequest lop arg' = .ok i ∧ s.placeInstr i operand = s.placeRequest lop arg' := by
  rcases decodeRequest_cases h with ⟨rfl, rfl⟩ | ⟨rfl, rfl⟩ | ⟨rfl, rfl⟩ | ⟨rfl, rfl⟩ | ⟨rfl, rfl⟩
  · exact ⟨0#8, rfl, rfl⟩
  · exact ⟨0#8, rfl, rfl⟩
  · exact ⟨arg, rfl, rfl⟩
  · exact ⟨arg, rfl, rfl⟩
  · exact ⟨zext8 (arg.getLsbD 0), Laws.RoundTrip.setRef (arg.getLsbD 0) rfl, rfl⟩

end Sys2Proof.Machine
end

/-! ## The statements -/

section
open Sys2Proof Sys2Proof.Machine

/-- Settles O1: the round trip of each instruction. -/
theorem decodeAfterEncodeGivesInstrBack : Obligations.DecodeAfterEncodeGivesInstrBack := by
  intro i h
  cases i with
  | p => exact Laws.RoundTrip.p h
  | param idx => exact Laws.RoundTrip.param idx h
  | s => exact Laws.RoundTrip.s h
  | r => exact Laws.RoundTrip.r h
  | ignore b => exact Laws.RoundTrip.ignore b h
  | start => exact Laws.RoundTrip.start h
  | stop => exact Laws.RoundTrip.stop h
  | armTrig level => exact Laws.RoundTrip.armTrig level h
  | setChan ch => exact Laws.RoundTrip.setChan ch h
  | setRef useInternal => exact Laws.RoundTrip.setRef useInternal h
  | adcDone sample => exact Laws.RoundTrip.adcDone sample h
  | emit => exact Laws.RoundTrip.emit h
  | trigPoll => exact Laws.RoundTrip.trigPoll h
  | txData d => exact Laws.RoundTrip.txData d h
  | txSettings i r c => exact Laws.RoundTrip.txSettings i r c h
  | txStatus e p => exact Laws.RoundTrip.txStatus e p h

/-- Settles O3, by induction on the commands: each is read back with the reader left in opcode position. -/
theorem commandStreamDecodesToItsCommands : Obligations.CommandStreamDecodesToItsCommands := by
  intro cs hcs
  induction cs with
  | nil => rfl
  | cons c cs ih =>
    obtain ⟨hc, hcs⟩ := List.forall_mem_cons.mp hcs
    rw [List.flatMap_cons, decodeStream_command hc, ih hcs, List.flatMap_cons]

/-- Settles O39: by the ways a move takes one state to the next, by the frame each of them sends. -/
theorem everyStepSendsWholeFrames : Obligations.EveryStepSendsWholeFrames := by
  intro m s t hr h
  cases stepMove_effect h with
  | reset _ _ hm => subst hm; cases hr
  | toggledOff | toggledOn | started | stopped =>
    subst_vars
    exact ⟨_, by simp [State.txlog, txOf, State.statusFrame, statusBytes, zext8], .inr (.inl rfl)⟩
  | queried | dividerSet =>
    subst_vars
    exact ⟨_, by simp [State.txlog, txOf, State.settingsFrame, settingsBytes], .inr (.inr (.inl rfl))⟩
  | emitted _ d _ hf he hc hd _ ht | emittedThenWait _ d _ hf he hc hd _ ht =>
    exact ⟨dataBytes d, by simp [ht, State.txlog], .inr (.inr (.inr ⟨d, hd, rfl, hf, he, hc⟩))⟩
  | _ =>
    subst_vars
    exact ⟨[], by simp [State.txlog, txOf], .inl rfl⟩

/-- Settles O2, by the places a code can stand in. -/
theorem decodedCodeIsTheEncoding : Obligations.DecodedCodeIsTheEncoding := by
  intro c i h
  cases c with
  | opcode b =>
    cases h
    obtain ⟨hw, he⟩ := decodeOpcode_sound b
    exact ⟨hw, fun _ => he, nofun⟩
  | parameter | event => cases h; exact ⟨rfl, fun _ => rfl, nofun⟩
  | action a => cases a <;> cases h <;> exact ⟨rfl, fun _ => rfl, nofun⟩
  | request lop arg =>
    obtain ⟨hw, he⟩ := decodeRequest_sound h
    exact ⟨hw, fun hn => absurd rfl (hn lop arg), fun _ _ heq => by cases heq; exact he⟩
  | frame bytes =>
    obtain ⟨hw, he⟩ := decodeFrame_sound h
    exact ⟨hw, fun _ => he, nofun⟩

/-- Settles O4: `isCommandStream_of_bytes`, in opcode position. -/
theorem everyByteStreamIsCommands : Obligations.EveryByteStreamIsCommands :=
  fun bytes => (isCommandStream_of_bytes bytes).1

/-- Settles O5: the commands are got back from their bytes, through the instructions these are read as. -/
theorem commandBytesDetermineTheCommands : Obligations.CommandBytesDetermineTheCommands := by
  intro cs ds hcs hds h
  have hread {es : List Command} (hes : ∀ e ∈ es, e.wellFormed = true) :
      commandsOf (decodeStream false (es.flatMap Command.bytes)) = es := by
    rw [commandStreamDecodesToItsCommands es hes, commandsOf_flatMap_instrs]
  rw [← hread hcs, h, hread hds]

/-- Settles O12: the events leave the first 400 samples in the buffer, and the emission is then the only enabled action. -/
theorem fullBufferIsSentAsOneDataFrame : Obligations.FullBufferIsSentAsOneDataFrame := by
  intro vs prefer rest s hlen he hcursor hf hq hl hs
  have hrun : runSteps (vs.length + 1) s =
      runMoves (vs.map .convert ++ [.foreground prefer]) { s with schedule := rest } := by
    have h := scheduleRealisesAnyInterleaving (vs.map .convert ++ [.foreground prefer]) rest s
    rw [List.append_assoc, List.singleton_append, ← hs] at h
    simpa using h
  have hempty : ({ s with schedule := rest } : State).collected = .ok [] := by
    simp [State.collected, hcursor, Memory.readFrom]
  obtain ⟨buf, cursor, tail, hmoves, hd⟩ :=
    runMoves_converts_collect (s := { s with schedule := rest }) vs he hempty (Nat.zero_le 400)
  rw [List.nil_append] at hd
  have hfull : cursor.toNat = 400 := by
    have hcount := ((Memory.readFrom_ok_iff _ _ _ _).mp hd).1
    rw [List.length_take] at hcount
    omega
  rw [hfull] at hd
  obtain ⟨t, ht, hend⟩ :=
    exists_stepMove_emission (s := { s with schedule := rest, buf := buf, cursor := cursor, adcTail := tail }) prefer hf he
      (BitVec.eq_of_toNat_eq hfull) hq hl hd
  exact ⟨t, by rw [hrun, runMoves_append hmoves, runMoves_cons ht, runMoves], hend⟩

/-- Settles O26: Euclidean division twice, of the numerator and of a hundred times its remainder. -/
theorem rateBytesTruncateTheRate : Obligations.RateBytesTruncateTheRate := by
  intro e he
  simp only [RateEntry.valid, Bool.and_eq_true, decide_eq_true_eq] at he
  obtain ⟨hden, hint⟩ := he
  have hrem := Nat.mod_lt e.num hden
  have hcenti : e.num % e.den * 100 / e.den < 100 := Nat.div_lt_of_lt_mul (by omega)
  have hfirst := Nat.div_add_mod e.num e.den
  have hsecond := Nat.div_add_mod (e.num % e.den * 100) e.den
  have hlast := Nat.mod_lt (e.num % e.den * 100) hden
  rw [show (rateInt e).toNat = e.num / e.den from Nat.mod_eq_of_lt (by omega),
    show (rateCenti e).toNat = e.num % e.den * 100 / e.den from Nat.mod_eq_of_lt (by omega)]
  have hrate : 100 * e.num =
      (100 * (e.num / e.den) + e.num % e.den * 100 / e.den) * e.den + e.num % e.den * 100 % e.den := by
    linarith only [hfirst, hsecond]
  refine ⟨Nat.le_of_lt_succ hcenti, hrate ▸ Nat.le_add_right _ _, ?_⟩
  rw [hrate]
  exact (Nat.add_lt_add_left hlast _).trans_eq (Nat.succ_mul _ _).symm

/-- Settles O29: the first step leaves the foreground waiting for a parameter, so the second reads `53` as one. -/
theorem byteAfterPIsSwallowed : Obligations.ByteAfterPIsSwallowed := by
  intro a b rest s hf hq hl hc hp hs
  have hfirst : step s = .next { s with schedule := .foreground b :: rest, rxq := [0x53#8], fg := .waitParam } :=
    (step_command hs hp hf hq hl hc).trans (execP_next.mpr ⟨hf, rfl⟩)
  rw [runSteps_succ hfirst]
  refine ⟨_, runSteps_succ ((step_parameter rfl (by exact hp) rfl rfl).trans (execParam_next.mpr ⟨rfl, rfl⟩)), ?_⟩
  by_cases hi : 83 < s.params.entries
  · simp [hi]
  · simp [hi]

/-- Settles O55: a word that is no frame is placed as a command or as a request, and both are fetched next. -/
theorem placedWordRunsNext : Obligations.PlacedWordRunsNext := by
  intro nbits w i s h hdata hsettings hstatus
  suffices hfetch : ∃ t, fetch (s.withFetchWord nbits w) = .run i t ∧ t.schedule = s.schedule ∧ t.fg = .idle ∧
      t.buf = s.buf ∧ t.out = s.out by
    obtain ⟨t, ht, hkept⟩ := hfetch
    exact ⟨t, ht, congrArg Fetched.carryOut ht, hkept⟩
  simp only [State.withFetchWord, State.placeWord, h]
  generalize (if nbits = 16 then BitVec.ofNat 8 (w / 256) else 0#8) = operand
  rcases decodeTableWord_cases h with ⟨b, hb⟩ | ⟨lop, arg, hreq⟩ | ⟨bytes, hframe⟩
  · obtain ⟨bytes, hplaced⟩ := State.placeInstr_of_decodeOpcode hb operand s
    rw [hplaced, State.fetch_placeCommand, hb]
    exact ⟨_, rfl, rfl, rfl, rfl, rfl⟩
  · obtain ⟨arg', hreq', hplaced⟩ := State.placeInstr_of_decodeRequest hreq operand s
    rw [hplaced, State.fetch_placeRequest hreq']
    exact ⟨_, rfl, rfl, rfl, rfl, rfl⟩
  · have hcode := (decodeFrame_sound hframe).2
    cases i with
    | txData d => exact absurd rfl (hdata d)
    | txSettings x r c => exact absurd rfl (hsettings x r c)
    | txStatus e p => exact absurd rfl (hstatus e p)
    | _ => cases hcode

/-- Settles O6: the written-out codes by evaluation; `IGNORE` is every byte that is no opcode. -/
theorem writtenOutCodesDecode : Obligations.WrittenOutCodesDecode := by
  refine ⟨rfl, rfl, rfl, rfl, rfl, rfl, rfl, rfl, rfl, rfl, rfl, rfl, rfl, rfl, rfl, fun b => ?_⟩
  rw [← isOpcode_eq_false_iff, ← decodeOpcode_eq_ignore_iff]
  exact Iff.of_eq (Except.ok.injEq _ _)

/-- Settles O33: the command step runs `IGNORE`, which leaves the state as it is. -/
theorem ignoreResult : Obligations.IgnoreResult := by
  refine ⟨fun b s hf => (execIgnore_next (b := b)).mpr ⟨hf, rfl⟩, fun prefer b q s hp ha hq h50 h52 h53 => ?_⟩
  obtain ⟨hf, -⟩ := State.mem_enabledActions.mp (State.chooseAction_mem ha)
  have hb : isOpcode b = false := (isOpcode_eq_false_iff b).mpr ⟨h50, h52, h53⟩
  simp only [stepMove_eq hp, State.perform, ha, State.takeAction_cmd hq, decodeOpcode_ignore hb]
  exact (execIgnore_next (b := b)).mpr ⟨hf, rfl⟩

/-- Settles O37: the hypotheses are each row's precondition and its fields. -/
theorem frameRowsSendTheirFrame : Obligations.FrameRowsSendTheirFrame := by
  refine ⟨fun e p s hf he hp => ?status, fun i e s hf hi hrate => ?settings, fun d s hf he hc hlen hcells => ?data⟩
  case status => exact execTxStatus_next.mpr ⟨hf, by rw [he, hp], rfl⟩
  case settings =>
    subst hi
    exact execTxSettings_next.mpr ⟨hf, by rw [rateBytes_of_entry hrate], rfl⟩
  case data => exact execTxData_next.mpr ⟨⟨hf, he, hc⟩, State.readBuffer_ok_iff.mpr ⟨hlen, hcells⟩, rfl⟩

/-- Settles O47: the local step is the only enabled action, and an unassigned code decodes to nothing. -/
theorem unassignedRequestIsDiscarded : Obligations.UnassignedRequestIsDiscarded := by
  intro prefer lop arg q s hlop hf hq hc hp hl
  rw [stepMove_single hp (State.enabledActions_request hf hq hl hc), State.takeAction_loc_unassigned hlop hl]
  rfl

end

/-! # Proofs: the statements of 40_acquisition.md -/

section
open Sys2Proof Sys2Proof.Machine

/-- Settles O11: the run of the conversions is `runMoves_converts_collect`, an induction on the events; the cursor is the
number of samples collected. -/
theorem eventsFillTheBufferInOrder : Obligations.EventsFillTheBufferInOrder := by
  intro vs d s he hc hd
  have hlen : d.length = s.cursor.toNat := State.collected_length hd
  obtain ⟨buf, cursor, tail, hmoves, hcollected⟩ := runMoves_converts_collect vs he hd (hlen ▸ hc)
  have hcount : ((d ++ vs).take 400).length = cursor.toNat := ((Memory.readFrom_ok_iff _ _ _ _).mp hcollected).1
  rw [List.length_take, List.length_append, hlen] at hcount
  exact ⟨_, hmoves, hcollected, hcount.symm, rfl⟩

/-- Settles O10: the handler stores where its gate is open and leaves the state as it is elsewhere (`execAdcDone_next`). -/
theorem conversionStoresOrIsDropped : Obligations.ConversionStoresOrIsDropped := by
  refine fun v s => ⟨fun he hc => ⟨s.storeSample v, ?stored, ?cell, ?otherCells, ?cursor, rfl⟩, fun hgate => ?dropped⟩
  case stored => exact execAdcDone_next.mpr (if_pos ⟨he, hc⟩)
  case cell => exact Memory.read_write_same s.buf s.cursor.toNat v
  case otherCells => exact fun k hk => Memory.read_write_ne s.buf v hk
  case cursor => exact cursor_succ hc
  case dropped => exact execAdcDone_next.mpr (if_neg hgate)

end

/-! # Proofs: the statements of 41_sampling_controller.md -/

/-! ## A trigger wait below the level, and one toggle -/

section
namespace Sys2Proof.Machine

variable {s : State}

theorem State.latchRead_of_holds {v : Byte} (h : s.latch = .holds v) : s.latchRead = (v, s) := by
  simp [State.latchRead, h]

/-- A poll of a latch that holds a value below the level changes nothing (R125). -/
theorem execTrigPoll_below {v : Byte} (hf : s.fg = .trigWait) (hl : s.latch = .holds v)
    (hv : v.toNat < s.trigLvl.toNat) : execTrigPoll s = .next s :=
  execTrigPoll_next.mpr ⟨hf, v, s.draws, State.latchRead_of_holds hl, if_neg (Nat.not_le.mpr hv)⟩

section
variable {v : Byte} (hf : s.fg = .trigWait) (hl : s.latch = .holds v) (hv : v.toNat < s.trigLvl.toNat)
  (hc : s.cursor = 400#9) (hp : s.pausedWhileDisabled = false)
include hf hl hv hc hp

/-- One move during a trigger wait below the level: the queues may grow and the converter's ghost may change, since the
poll finds the latch too low and a conversion finds the buffer full (R126, R127). -/
theorem stepMove_keeps_trigger_wait {m : Move} (hm : leavesTriggerAlone m = true) :
    ∃ rxq localq tail, stepMove m s = .next { s with rxq := rxq, localq := localq, adcTail := tail } ∧
      s.rxq <+: rxq ∧ s.localq <+: localq := by
  cases m with
  | reset keepRx keepLocal => cases hm
  | setLatch w => cases hm
  | convert w =>
    have hgate : ¬(s.enabled = true ∧ s.cursor.toNat < 400) := fun h => absurd (hc ▸ h.2) (by decide)
    exact ⟨s.rxq, s.localq, s.adcAuto && s.adcTail, (stepMove_eq hp).trans (execAdcDone_next.mpr (if_neg hgate)),
      List.prefix_rfl, List.prefix_rfl⟩
  | deliver b =>
    exact ⟨s.rxq ++ [b], s.localq, s.adcTail, stepMove_eq hp, List.prefix_append _ _, List.prefix_rfl⟩
  | post lop arg =>
    exact ⟨s.rxq, s.localq ++ [⟨lop, arg⟩], s.adcTail, stepMove_eq hp, List.prefix_rfl, List.prefix_append _ _⟩
  | foreground prefer =>
    have hpoll : stepMove (.foreground prefer) s = exec .trigPoll s := stepMove_single hp (State.enabledActions_poll hf)
    exact ⟨s.rxq, s.localq, s.adcTail, hpoll.trans (execTrigPoll_below hf hl hv), List.prefix_rfl, List.prefix_rfl⟩

theorem runMoves_keeps_trigger_wait {ms : List Move} (hms : ∀ m ∈ ms, leavesTriggerAlone m = true) :
    ∃ rxq localq tail, runMoves ms s = .next { s with rxq := rxq, localq := localq, adcTail := tail } ∧
      s.rxq <+: rxq ∧ s.localq <+: localq := by
  induction ms generalizing s with
  | nil => exact ⟨s.rxq, s.localq, s.adcTail, rfl, List.prefix_rfl, List.prefix_rfl⟩
  | cons m ms ih =>
    obtain ⟨hm, hms⟩ := List.forall_mem_cons.mp hms
    obtain ⟨rxq, localq, tail, hmove, hrx, hlocal⟩ := stepMove_keeps_trigger_wait hf hl hv hc hp hm
    obtain ⟨rxq', localq', tail', hmoves, hrx', hlocal'⟩ :=
      ih (s := { s with rxq := rxq, localq := localq, adcTail := tail }) hf hl hv hc hp hms
    exact ⟨rxq', localq', tail', (runMoves_cons hmove).trans hmoves, hrx.trans hrx', hlocal.trans hlocal'⟩

end

/-- One toggle in `Idle` flips `ENABLED`, clears `PAUSED` and sends one status frame with the new flags (R122, R129). -/
theorem exists_exec_toggle (hf : s.fg = .idle) : ∃ t, exec .s s = .next t ∧ t.fg = .idle ∧ t.enabled = !s.enabled ∧
    t.paused = false ∧ t.txlog = s.txlog ++ [0x58#8, zext8 t.enabled, zext8 t.paused] := by
  refine ⟨s.toggleOp, execS_next.mpr ⟨hf, rfl⟩, ?_⟩
  cases he : s.enabled with
  | true =>
    rw [State.toggleOp_of_enabled he]
    exact ⟨hf, rfl, rfl, txOf_append _ _⟩
  | false =>
    rw [State.toggleOp_of_disabled he]
    exact ⟨hf, rfl, rfl, txOf_append _ _⟩

end Sys2Proof.Machine
end

/-! ## The statements -/

section
open Sys2Proof Sys2Proof.Machine

/-- Settles O20: the run of the moves is `runMoves_keeps_trigger_wait`, an induction on the list; it writes nothing but the
two queues and the converter's ghost. -/
theorem triggerWaitLastsWhileLatchIsBelow : Obligations.TriggerWaitLastsWhileLatchIsBelow := by
  intro ms v s hms hf hl hv hc hp
  obtain ⟨rxq, localq, tail, hrun, hrx, hlocal⟩ := runMoves_keeps_trigger_wait hf hl hv hc hp hms
  exact ⟨_, hrun, hf, rfl, rfl, hc, hrx, hlocal, rfl, rfl⟩

/-- Settles O13. -/
theorem startResult : Obligations.StartResult := fun s hf => execStart_next.mpr ⟨hf, s.startOp_eq⟩

/-- Settles O14: the operation whole (`State.stopOp_eq`), for each value of `ENABLED`. -/
theorem stopResult : Obligations.StopResult := by
  refine fun s hf => ⟨fun he => execStop_next.mpr ⟨hf, ?enabled⟩, fun he => execStop_next.mpr ⟨hf, ?disabled⟩⟩
  case enabled => simp [State.stopOp_eq, he, zext8]
  case disabled => simp [State.stopOp_eq, he, zext8]

/-- Settles O15. -/
theorem toggleResult : Obligations.ToggleResult := fun _ hf =>
  ⟨fun he => execS_next.mpr ⟨hf, State.toggleOp_of_enabled he⟩,
    fun he => execS_next.mpr ⟨hf, State.toggleOp_of_disabled he⟩⟩

/-- Settles O16: one toggle, twice (`exists_exec_toggle`). -/
theorem twoTogglesRestoreEnabled : Obligations.TwoTogglesRestoreEnabled := by
  intro s hf
  obtain ⟨t, ht, hft, hent, hpt, htxt⟩ := exists_exec_toggle hf
  obtain ⟨u, hu, -, henu, hpu, htxu⟩ := exists_exec_toggle hft
  exact ⟨t, u, ht, hu, by rw [henu, hent, Bool.not_not], hent, htxt, htxu, hpt, hpu⟩

/-- Settles O17: STOP does not write the cursor, and START sets it to 0 in any state. -/
theorem stopThenStartResetsCursor : Obligations.StopThenStartResetsCursor := fun s hf =>
  ⟨_, _, execStop_next.mpr ⟨hf, s.stopOp_eq⟩, rfl, startResult _ hf, rfl, rfl, rfl⟩

/-- Settles O18. -/
theorem armTrigResult : Obligations.ArmTrigResult := fun _ _ hf => execArmTrig_next.mpr ⟨hf, rfl⟩

/-- Settles O19: the value read is the latch's where it holds one (`State.latchRead_cases`). -/
theorem trigPollResult : Obligations.TrigPollResult := by
  intro s hf
  obtain ⟨v, n, hread, hheld⟩ := s.latchRead_cases
  refine ⟨v, n, hheld, fun hv => ?ends, fun hv => ?goesOn⟩
  case ends => exact execTrigPoll_next.mpr ⟨hf, v, n, hread, if_pos hv⟩
  case goesOn => exact execTrigPoll_next.mpr ⟨hf, v, n, hread, if_neg (Nat.not_le.mpr hv)⟩

end

/-! # Proofs: the statements of 42_configuration.md -/

/-! ## The mirror rule along the outputs, and the parameter byte -/

section
namespace Sys2Proof.Machine

variable {s t : State}

theorem lastConfigured_append (default : ChannelWord × Byte × Bool) (a b : List PeriphCall) :
    lastConfigured default (a ++ b) = lastConfigured (lastConfigured default a) b := by
  induction a generalizing default with
  | nil => rfl
  | cons c a ih => exact ih _

/-- The mirror rule goes on holding when the new outputs carry the registers from their old values to their new ones. -/
theorem State.mirrorHolds.after_outputs {outputs : List Output} (h : s.mirrorHolds) (hp : t.params = s.params)
    (ho : t.out = s.out ++ outputs)
    (hr : lastConfigured (s.chan, s.dividx, s.intref) (callsOf outputs) = (t.chan, t.dividx, t.intref)) :
    t.mirrorHolds := by
  have hs : lastConfigured (s.params.chanReset, s.params.dividxReset, s.params.intrefReset) (callsOf s.out) =
      (s.chan, s.dividx, s.intref) := h
  rw [State.mirrorHolds, State.plog, hp, ho, callsOf_append, lastConfigured_append, hs, hr]

/-- A move that writes a configuration register makes the Configure call with the new triple; no other move makes one, and
a reset puts the registers at the reset values and empties `PLOG`. -/
theorem stepMove_keeps_mirror {m : Move} (h : s.mirrorHolds) (hm : stepMove m s = .next t) : t.mirrorHolds := by
  cases stepMove_effect hm with
  | reset _ _ _ ht => subst ht; rfl
  | dividerSet _ _ _ _ _ _ _ ht | channelSet _ _ _ _ _ _ _ _ ht | referenceSet _ _ _ _ _ _ _ ht
  | toggledOff _ _ _ _ _ _ ht | toggledOn _ _ _ _ _ _ ht | started _ _ _ _ _ _ _ ht | stopped _ _ _ _ _ _ _ ht
  | queried _ _ _ _ _ ht => subst ht; exact h.after_outputs rfl rfl rfl
  | emitted _ _ _ _ _ _ _ _ ht | emittedThenWait _ _ _ _ _ _ _ _ ht =>
    subst ht; exact h.after_outputs rfl rfl (by rw [callsOf_map_tx]; rfl)
  | stored _ _ _ _ ht | lost _ _ _ ht | deliver _ _ ht | setLatch _ _ ht | post _ _ _ ht | polling _ _ _ ht
  | paramAwaited _ _ _ _ _ ht | ignored _ _ _ _ _ _ _ ht | dividerRejected _ _ _ _ _ _ _ ht
  | discarded _ _ _ _ _ _ ht | armed _ _ _ _ _ _ _ ht | waitGoesOn _ _ _ _ _ _ _ ht
  | waitEnds _ _ _ _ _ _ _ ht => subst ht; exact h

theorem execParam_of_entry {idx : Byte} {e : RateEntry} (hf : s.fg = .waitParam)
    (he : s.params.table[idx.toNat]? = some e) : execParam idx s = .next { s with
      dividx := idx, fg := .idle
      out := s.out ++ [.call (.configure s.chan idx s.intref .divider),
        .tx 0x53#8, .tx idx, .tx (rateInt e), .tx (rateCenti e)]
      adcAuto := true, adcTail := false } :=
  execParam_next.mpr ⟨hf, by rw [if_pos (index_of_entry he), rateBytes_of_entry he]⟩

theorem execParam_rejected {idx : Byte} (hf : s.fg = .waitParam) (hi : s.params.entries ≤ idx.toNat) :
    execParam idx s = .next { s with fg := .idle } :=
  execParam_next.mpr ⟨hf, if_neg (Nat.not_lt.mpr hi)⟩

/-- A parameter byte ends the wait and, inside the table, is stored and answered (R153). -/
theorem exists_exec_param (idx : Byte) (hf : s.fg = .waitParam) : ∃ dividx out auto tail,
    exec (.param idx) s = .next { s with fg := .idle, dividx := dividx, out := out, adcAuto := auto, adcTail := tail } ∧
      (∀ e, s.params.table[idx.toNat]? = some e → dividx = idx ∧
        txOf out = s.txlog ++ [0x53#8, idx, rateInt e, rateCenti e]) ∧
      (s.params.entries ≤ idx.toNat → dividx = s.dividx ∧ out = s.out) := by
  cases he : s.params.table[idx.toNat]? with
  | some e =>
    refine ⟨_, _, _, _, execParam_of_entry hf he, fun e' he' => ?_, fun hi => ?_⟩
    · cases he'
      exact ⟨rfl, txOf_append _ _⟩
    · exact absurd (index_of_entry he) (Nat.not_lt.mpr hi)
  | none => exact ⟨_, _, _, _, execParam_rejected hf (List.getElem?_eq_none_iff.mp he), nofun, fun _ => ⟨rfl, rfl⟩⟩

/-- With nothing else to serve, `R` is answered with the settings frame. -/
theorem step_query {prefer : FgAction} {rest : List Move} {q : List Byte}
    (hs : s.schedule = .foreground prefer :: rest) (hp : s.pausedWhileDisabled = false) (hf : s.fg = .idle)
    (hq : s.rxq = 0x52#8 :: q) (hl : s.localq = []) (hc : s.collectible = false) :
    step s = .next { s with schedule := rest, rxq := q }.sendSettings :=
  (step_command hs hp hf hq hl hc).trans (execR_next.mpr ⟨hf, rfl⟩)

end Sys2Proof.Machine
end

/-! ## The statements -/

section
open Sys2Proof Sys2Proof.Machine

/-- Settles O27: a step is a move, and every move keeps the mirror rule (`stepMove_keeps_mirror`). -/
theorem mirrorRuleKeptByEveryStep : Obligations.MirrorRuleKeptByEveryStep := by
  intro s t h hstep
  obtain ⟨m, schedule, draws, hm⟩ := exists_stepMove_of_step hstep
  exact stepMove_keeps_mirror (s := { s with schedule := schedule, draws := draws }) h hm

/-- Settles O23: a channel of 0 to 5 is unchanged by the truncation to three bits. -/
theorem setChanResult : Obligations.SetChanResult := by
  refine fun ch s hf => ⟨fun hc => ⟨channelOf ch, ?value, ?stored⟩, fun hc => ?dropped⟩
  case value => exact Nat.mod_eq_of_lt (Nat.lt_of_le_of_lt hc (by decide))
  case stored => exact execSetChan_next.mpr ⟨hf, if_pos hc⟩
  case dropped => exact execSetChan_next.mpr ⟨hf, if_neg (Nat.not_le.mpr hc)⟩

/-- Settles O24. -/
theorem setRefResult : Obligations.SetRefResult := fun _ _ hf => execSetRef_next.mpr ⟨hf, rfl⟩

/-- Settles O25. -/
theorem parameterByteResult : Obligations.ParameterByteResult := fun _ _ hf =>
  ⟨fun _ he => execParam_of_entry hf he, fun hi => execParam_rejected hf hi⟩

/-- Settles O28: the first step begins the parameter wait, the second ends it with the index stored and answered, or with
nothing changed, and the third answers with the settings then in force. -/
theorem setDividerThenQuery : Obligations.SetDividerThenQuery := by
  intro idx a b c rest s hf hq hl hc hp hs
  have hfirst : step s = .next { s with
      schedule := .foreground b :: .foreground c :: rest, rxq := [idx, 0x52#8], fg := .waitParam } :=
    (step_command hs hp hf hq hl hc).trans (execP_next.mpr ⟨hf, rfl⟩)
  obtain ⟨dividx, out, auto, tail, hparam, haccepted, hrejected⟩ := exists_exec_param (s := { s with
      schedule := .foreground c :: rest, rxq := [0x52#8], fg := .waitParam }) idx rfl
  have hsecond := (step_parameter (s := { s with
      schedule := .foreground b :: .foreground c :: rest, rxq := [idx, 0x52#8], fg := .waitParam })
    rfl hp rfl rfl).trans hparam
  rw [runSteps_succ hfirst, runSteps_succ hsecond]
  refine ⟨_, runSteps_succ (step_query rfl hp rfl rfl hl hc), rfl, rfl, rfl, fun e he => ?accepted,
    fun hi => ?rejected⟩
  case accepted =>
    obtain ⟨rfl, hout⟩ := haccepted e he
    refine ⟨rfl, ?_⟩
    rw [State.sendSettings_eq, State.txlog_tx, rateBytes_of_entry he, State.txlog, hout, List.append_assoc]
    rfl
  case rejected =>
    obtain ⟨rfl, rfl⟩ := hrejected hi
    exact ⟨rfl, State.plog_tx _ _, State.txlog_tx _ _⟩

end

/-! # Proofs: the statements of 43_frame_protocol.md -/

/-! ## The foreground's choice, the parameter wait and the data frame -/

section
namespace Sys2Proof.Machine

variable {s t : State}

/-! The choice among the enabled actions (R150). -/

/-- With one enabled action or none, the choice among the admitted actions is the same as with several. -/
theorem State.chooseAction_eq (prefer : FgAction) (s : State) : s.chooseAction prefer =
    if prefer ∈ admitted s.params.fgOrder s.enabledActions then some prefer
    else (admitted s.params.fgOrder s.enabledActions).head? := by
  have hnone (order : FgOrder) : admitted order [] = [] := by cases order <;> rfl
  have hone (order : FgOrder) (a : FgAction) : admitted order [a] = [a] := by cases order <;> cases a <;> rfl
  unfold State.chooseAction
  split
  case h_1 h => simp [h, hnone]
  case h_2 a h =>
    by_cases hp : prefer = a
    · simp [h, hone, hp]
    · simp [h, hone, hp]
  case h_3 => rfl

theorem State.chooseAction_of_admitted {a : FgAction} (h : a ∈ admitted s.params.fgOrder s.enabledActions) :
    s.chooseAction a = some a := by
  rw [State.chooseAction_eq, if_pos h]

/-- What is alone admitted is taken, whatever the foreground prefers. -/
theorem State.chooseAction_of_admitted_only {a : FgAction} (h : admitted s.params.fgOrder s.enabledActions = [a])
    (prefer : FgAction) : s.chooseAction prefer = some a := by
  by_cases hp : prefer = a
  · simp [State.chooseAction_eq, h, hp]
  · simp [State.chooseAction_eq, h, hp]

theorem State.chooseAction_eq_none_iff {prefer : FgAction} : s.chooseAction prefer = none ↔ s.enabledActions = [] :=
  ⟨State.chooseAction_none, fun h => by simp [State.chooseAction, h]⟩

/-! The parameter wait with no byte to read (R163). -/

theorem State.enabledActions_waitParam (hf : s.fg = .waitParam) :
    s.enabledActions = if s.rxq = [] then [] else [.param] := by
  cases hq : s.rxq with
  | nil => simp [State.enabledActions, hf, State.rxAvail, hq]
  | cons b q => simp [State.enabledActions_parameter hf hq]

theorem stepMove_foreground_of_none {prefer : FgAction} (hp : s.pausedWhileDisabled = false)
    (h : s.enabledActions = []) : stepMove (.foreground prefer) s = .next s := by
  rw [stepMove_eq hp, State.perform, State.chooseAction_eq_none_iff.mpr h]
  rfl

/-- The handler writes nothing but `BUF` and `CURSOR`, and never moves the cursor back. -/
theorem exists_execAdcDone (v : Byte) (s : State) : ∃ buf cursor,
    execAdcDone v s = .next { s with buf := buf, cursor := cursor } ∧ s.cursor.toNat ≤ cursor.toNat := by
  by_cases hgate : s.enabled = true ∧ s.cursor.toNat < 400
  · exact ⟨_, _, execAdcDone_next.mpr (if_pos hgate), by rw [cursor_succ hgate.2]; exact Nat.le_succ _⟩
  · exact ⟨s.buf, s.cursor, execAdcDone_next.mpr (if_neg hgate), Nat.le_refl _⟩

section
variable (hf : s.fg = .waitParam) (hq : s.rxq = []) (hp : s.pausedWhileDisabled = false)
include hf hq hp

/-- One move during a parameter wait without a byte: a conversion may be stored, a request may be posted, the latch may
change; the foreground finds nothing enabled. -/
theorem stepMove_keeps_parameter_wait {m : Move} (hm : leavesStreamAlone m = true) :
    ∃ buf cursor localq latch tail, stepMove m s = .next { s with
        buf := buf, cursor := cursor, localq := localq, latch := latch, adcTail := tail } ∧
      s.localq <+: localq ∧ s.cursor.toNat ≤ cursor.toNat := by
  cases m with
  | reset keepRx keepLocal => cases hm
  | deliver b => cases hm
  | convert v =>
    obtain ⟨buf, cursor, hexec, hcursor⟩ := exists_execAdcDone v s.enterHandler
    exact ⟨buf, cursor, s.localq, s.latch, _, (stepMove_eq hp).trans hexec, List.prefix_rfl, hcursor⟩
  | setLatch v =>
    exact ⟨s.buf, s.cursor, s.localq, .holds v, s.adcTail, stepMove_eq hp, List.prefix_rfl, Nat.le_refl _⟩
  | post lop arg =>
    exact ⟨s.buf, s.cursor, s.localq ++ [⟨lop, arg⟩], s.latch, s.adcTail, stepMove_eq hp, List.prefix_append _ _,
      Nat.le_refl _⟩
  | foreground prefer =>
    have hnone : s.enabledActions = [] := (State.enabledActions_waitParam hf).trans (if_pos hq)
    exact ⟨s.buf, s.cursor, s.localq, s.latch, s.adcTail, stepMove_foreground_of_none hp hnone, List.prefix_rfl,
      Nat.le_refl _⟩

theorem runMoves_keeps_parameter_wait {ms : List Move} (hms : ∀ m ∈ ms, leavesStreamAlone m = true) :
    ∃ buf cursor localq latch tail, runMoves ms s = .next { s with
        buf := buf, cursor := cursor, localq := localq, latch := latch, adcTail := tail } ∧
      s.localq <+: localq ∧ s.cursor.toNat ≤ cursor.toNat := by
  induction ms generalizing s with
  | nil => exact ⟨s.buf, s.cursor, s.localq, s.latch, s.adcTail, rfl, List.prefix_rfl, Nat.le_refl _⟩
  | cons m ms ih =>
    obtain ⟨hm, hms⟩ := List.forall_mem_cons.mp hms
    obtain ⟨buf, cursor, localq, latch, tail, hmove, hlocal, hcursor⟩ := stepMove_keeps_parameter_wait hf hq hp hm
    obtain ⟨buf', cursor', localq', latch', tail', hmoves, hlocal', hcursor'⟩ :=
      ih (s := { s with buf := buf, cursor := cursor, localq := localq, latch := latch, adcTail := tail }) hf hq hp hms
    exact ⟨buf', cursor', localq', latch', tail', (runMoves_cons hmove).trans hmoves, hlocal.trans hlocal',
      Nat.le_trans hcursor hcursor'⟩

end

/-! One data frame per full buffer (R158). -/

/-- Outside the trigger wait the cursor is at most `n`: what `n` conversions since the last emission can have stored. -/
def State.StoredAtMost (n : Nat) (s : State) : Prop := s.fg ≠ .trigWait → s.cursor.toNat ≤ n

theorem State.StoredAtMost.emitEnabled {n : Nat} (h : s.StoredAtMost n) (hn : n < 400) : s.emitEnabled = false := by
  rw [← Bool.not_eq_true, State.emitEnabled_iff]
  rintro ⟨hf, -, hc⟩
  have hle : s.cursor.toNat ≤ n := h (by rw [hf]; nofun)
  rw [hc] at hle
  exact absurd (Nat.lt_of_le_of_lt hle hn) (by decide)

theorem execEmit_storedAtMost (h : execEmit s = .next t) : t.StoredAtMost 0 := by
  obtain ⟨-, d, -, rfl⟩ := execEmit_next.mp h
  split
  · exact fun hw => absurd rfl hw
  · exact fun _ => Nat.le_refl 0

/-- Only a stored conversion moves the cursor up, by one; the trigger wait is left with the cursor at 0. -/
theorem stepMove_storedAtMost {m : Move} {n : Nat} (hs : s.StoredAtMost n) (h : stepMove m s = .next t) :
    t.StoredAtMost (n + ([m].filter isConvert).length) := by
  intro hw
  cases stepMove_effect h with
  | stored v hm _ hc ht =>
    subst hm ht
    rw [cursor_succ hc]
    exact Nat.succ_le_succ (hs hw)
  | reset | toggledOn | started | emitted | waitEnds => subst_vars; exact Nat.zero_le _
  | emittedThenWait => subst_vars; exact absurd rfl hw
  | paramAwaited _ _ _ hf | dividerSet _ _ _ _ hf | dividerRejected _ _ _ _ hf =>
    subst_vars
    exact Nat.le_add_right_of_le (hs (by rw [hf]; nofun))
  | _ => subst_vars; exact Nat.le_add_right_of_le (hs hw)

theorem exists_of_runMoves_cons {m : Move} {ms : List Move} (h : runMoves (m :: ms) s = .next t) :
    ∃ u, stepMove m s = .next u ∧ runMoves ms u = .next t := by
  rw [runMoves] at h
  split at h
  case h_1 u hu => exact ⟨u, hu, h⟩
  case h_2 => cases h
  case h_3 => cases h

theorem runMoves_storedAtMost {ms : List Move} {n : Nat} (hs : s.StoredAtMost n) (h : runMoves ms s = .next t) :
    t.StoredAtMost (n + (ms.filter isConvert).length) := by
  induction ms generalizing s n with
  | nil => cases h; exact hs
  | cons m ms ih =>
    obtain ⟨u, hm, hms⟩ := exists_of_runMoves_cons h
    have ht := ih (stepMove_storedAtMost hs hm) hms
    rwa [Nat.add_assoc, ← List.length_append, ← List.filter_append, List.singleton_append] at ht

end Sys2Proof.Machine
end

/-! ## The statements -/

section
open Sys2Proof Sys2Proof.Machine

/-- Settles O34: the sequential read gives the 400 cells in order, and `TRIGMODE` decides what follows the frame. -/
theorem emitResult : Obligations.EmitResult := by
  intro s hf he hc hcells
  obtain ⟨d, hd⟩ := Memory.readFrom_of_written s.buf 0 capacity fun k _ hk => hcells k (by simpa [capacity] using hk)
  obtain ⟨hlen, hread⟩ := State.readBuffer_ok_iff.mp hd
  refine ⟨d, _, execEmit_next.mpr ⟨⟨hf, he, hc⟩, d, hd, rfl⟩, hlen, hread, ?_⟩
  cases s.trigMode with
  | true => exact ⟨rfl, fun _ => rfl, nofun⟩
  | false => exact ⟨rfl, nofun, fun _ => rfl⟩

/-- Settles O36: after the emission nothing is stored yet, and each conversion stores at most one sample
(`runMoves_storedAtMost`). -/
theorem oneFramePerFullBuffer : Obligations.OneFramePerFullBuffer := fun _ _ _ _ hemit hcount hrun =>
  (runMoves_storedAtMost (execEmit_storedAtMost hemit) hrun).emitEnabled (by rwa [Nat.zero_add])

/-- Settles O38, by the instructions: each next state is written out, and what it adds to the outputs is read off. -/
theorem whichInstructionSendsWhat : Obligations.WhichInstructionSendsWhat := by
  intro i s t h
  cases i with
  | p | ignore | armTrig =>
    obtain ⟨-, ⟨⟩⟩ := whenEnabled_eq_next.mp h
    rfl
  | setRef u =>
    obtain ⟨-, rfl⟩ := execSetRef_next.mp h
    exact State.txlog_periph s _
  | setChan ch =>
    obtain ⟨-, rfl⟩ := execSetChan_next.mp h
    dsimp only
    split
    · exact State.txlog_periph s _
    · rfl
  | adcDone v =>
    obtain rfl := execAdcDone_next.mp h
    dsimp only
    split <;> rfl
  | trigPoll =>
    obtain ⟨-, v, n, -, rfl⟩ := execTrigPoll_next.mp h
    dsimp only
    split <;> rfl
  | s =>
    obtain ⟨u, hu, -, -, -, hsent⟩ := exists_exec_toggle (execS_next.mp h).1
    cases hu.symm.trans h
    exact hsent
  | start =>
    obtain ⟨-, rfl⟩ := execStart_next.mp h
    rw [State.startOp_eq]
    exact txOf_append _ _
  | stop =>
    obtain ⟨-, rfl⟩ := execStop_next.mp h
    rw [State.stopOp_eq]
    exact txOf_append _ _
  | r =>
    obtain ⟨-, rfl⟩ := execR_next.mp h
    exact State.txlog_tx s _
  | param idx =>
    obtain ⟨-, rfl⟩ := execParam_next.mp h
    by_cases hi : idx.toNat < s.params.entries
    · simp only [if_pos hi]
      exact txOf_append _ _
    · simp only [if_neg hi]
      exact (List.append_nil _).symm
  | emit =>
    obtain ⟨-, d, hd, rfl⟩ := execEmit_next.mp h
    refine ⟨d, hd, ?_⟩
    split
    · exact State.txlog_tx s _
    · exact State.txlog_tx s _
  | txData d =>
    obtain ⟨-, -, rfl⟩ := execTxData_next.mp h
    exact State.txlog_tx s _
  | txSettings idx r c =>
    obtain ⟨-, -, rfl⟩ := execTxSettings_next.mp h
    exact State.txlog_tx s _
  | txStatus e p =>
    obtain ⟨-, -, rfl⟩ := execTxStatus_next.mp h
    exact State.txlog_tx s _

/-- Settles O40: by the ways a move takes one state to the next, of which a reset and five others write `FG`. -/
theorem sequencerTransitions : Obligations.SequencerTransitions := by
  intro m s t h
  refine ⟨fun hr => ?reset, fun hr => ?row⟩
  case reset =>
    cases stepMove_effect h with
    | reset _ _ _ ht => subst ht; rfl
    | _ => subst_vars; cases hr
  case row =>
    cases stepMove_effect h with
    | reset _ _ hm => subst hm; cases hr
    | paramAwaited prefer q hm hf hq ht =>
      subst ht
      exact .inr ⟨⟨prefer, hm⟩, .inl ⟨hf, rfl, hq⟩⟩
    | emittedThenWait prefer d hm hf he hc _ htm ht =>
      subst ht
      exact .inr ⟨⟨prefer, hm⟩, .inr (.inl ⟨hf, rfl, he, hc, htm, hc⟩)⟩
    | dividerSet prefer idx q hm hf hq _ ht | dividerRejected prefer idx q hm hf hq _ ht =>
      subst ht
      exact .inr ⟨⟨prefer, hm⟩, .inr (.inr (.inl ⟨hf, rfl, idx, hq⟩))⟩
    | waitEnds prefer v n hm hf hread hv ht =>
      subst ht
      refine .inr ⟨⟨prefer, hm⟩, .inr (.inr (.inr ⟨hf, rfl, rfl, fun w hw => ?_⟩))⟩
      rw [State.latchRead_of_holds hw] at hread
      obtain ⟨rfl, -⟩ := Prod.mk.inj hread
      exact hv
    | _ => subst_vars; exact .inl rfl

/-- Settles O45: the run of the moves is `runMoves_keeps_parameter_wait`, an induction on the list; it writes neither `FG`,
`ENABLED`, the receive queue nor the outputs. -/
theorem parameterWaitLastsWithoutAByte : Obligations.ParameterWaitLastsWithoutAByte := by
  intro ms s hms hf hq hp
  obtain ⟨buf, cursor, localq, latch, tail, hrun, hlocal, hcursor⟩ := runMoves_keeps_parameter_wait hf hq hp hms
  exact ⟨_, hrun, hf, hq, rfl, hlocal, rfl, hcursor⟩

/-- Settles O54: the choice is made among the admitted actions (`State.chooseAction_eq`): under `any` all that are enabled,
under the other orders one alone in the cases named. -/
theorem sequencerChoosesAmongEnabledActions : Obligations.SequencerChoosesAmongEnabledActions := by
  refine fun s => ⟨fun _ _ => State.chooseAction_mem, fun _ => State.chooseAction_eq_none_iff, fun ho a ha => ?any,
    fun ho he => State.chooseAction_of_admitted_only ?emitFirst,
    fun ho hc => State.chooseAction_of_admitted_only ?cmdFirst,
    fun ho hc hl => State.chooseAction_of_admitted_only ?locNext⟩
  case any => exact State.chooseAction_of_admitted (by rwa [ho])
  case emitFirst => rw [ho]; exact if_pos he
  case cmdFirst => rw [ho]; exact if_pos hc
  case locNext => rw [ho]; exact (if_neg hc).trans (if_pos hl)

/-- Settles O31. -/
theorem firstByteOfPResult : Obligations.FirstByteOfPResult :=
  ⟨rfl, fun _ hf => ⟨execP_next.mpr ⟨hf, rfl⟩, State.enabledActions_waitParam rfl⟩⟩

/-- Settles O32: the frame's last two bytes are `rateBytes` of the index in force. -/
theorem queryResult : Obligations.QueryResult := fun _ hf =>
  ⟨_, _, execR_next.mpr ⟨hf, rfl⟩, fun _ he => Prod.mk.inj (rateBytes_of_entry he)⟩

end

/-! # Proofs: the statements of 60_exceptions.md -/

/-! ## The statements -/

section
open Sys2Proof Sys2Proof.Machine

/-- Settles O44. For the registers, by the ways a move takes one state to the next: a conversion, a loss, a delivery, a latch
change and a post write none of them, and every other way is a reset or a foreground action. -/
theorem onlyTheForegroundWritesFlags : Obligations.OnlyTheForegroundWritesFlags := by
  refine ⟨fun m s t hr hfg h => ?registers, fun s hp =>
    ⟨fun _ => stepMove_eq hp, fun _ _ => stepMove_eq hp, fun _ => stepMove_eq hp⟩⟩
  case registers =>
    cases stepMove_effect h with
    | stored _ _ _ _ ht | lost _ _ _ ht | deliver _ _ ht | setLatch _ _ ht | post _ _ _ ht =>
      subst ht
      exact ⟨rfl, rfl, rfl, rfl, rfl, rfl, rfl, rfl, rfl⟩
    | reset _ _ hm => subst hm; cases hr
    | _ => exact absurd ‹m = .foreground _› (hfg _)

end

/-! # Proofs: the statements of 70_reset_and_hazards.md -/

/-! ## The move of a chosen action, and the actions of fair executions -/

section
namespace Sys2Proof.Machine

variable {m : Move} {s t : State}

/-- A reset is never refused (R210, U3). -/
theorem stepMove_reset (keepRx keepLocal : Bool) (s : State) :
    stepMove (.reset keepRx keepLocal) s = .next (s.restart keepRx keepLocal) := by
  simp [stepMove, State.fetchMove, isReset, State.perform, Fetched.carryOut]

/-- In a quiescent state no foreground action is enabled (R229). -/
theorem State.quiescent.enabledActions_eq_nil (h : s.quiescent) : s.enabledActions = [] := by
  obtain ⟨hf, hrx, hlocal, hfull⟩ := h
  refine List.eq_nil_iff_forall_not_mem.mpr fun a ha => ?_
  have hen := State.mem_enabledActions.mp ha
  cases a with
  | cmd => exact hen.2 hrx
  | loc => exact hen.2 hlocal
  | emit => exact hfull hen.2
  | param => cases hf.symm.trans hen.1
  | poll => cases hf.symm.trans hen

/-! What a move does that takes a given action. -/

theorem stepMove_of_choice {prefer a : FgAction} (hp : s.pausedWhileDisabled = false)
    (ha : s.chooseAction prefer = some a) : stepMove (.foreground prefer) s = (s.takeAction a).carryOut := by
  rw [stepMove_eq hp, State.perform, ha]

theorem not_pausedWhileDisabled_of_stepMove (hr : isReset m = false) (h : stepMove m s = .next t) :
    s.pausedWhileDisabled = false := by
  cases hp : s.pausedWhileDisabled with
  | false => rfl
  | true => simp [stepMove, State.fetchMove, hp, hr, Fetched.carryOut] at h

theorem takeAction_of_actionTaken {a : FgAction} (ha : actionTaken m s = some a) (h : stepMove m s = .next t) :
    (s.takeAction a).carryOut = .next t := by
  obtain ⟨prefer, rfl, hc⟩ := foreground_of_actionTaken ha
  rwa [stepMove_of_choice (not_pausedWhileDisabled_of_stepMove rfl h) hc] at h

theorem emission_of_actionTaken (ha : actionTaken m s = some .emit) (h : stepMove m s = .next t) :
    s.fg = .idle ∧ ∃ d, s.readBuffer = .ok d ∧ t.txlog = s.txlog ++ dataBytes d := by
  have hexec : exec .emit s = .next t := takeAction_of_actionTaken ha h
  exact ⟨(execEmit_next.mp hexec).1.1, whichInstructionSendsWhat .emit s t hexec⟩

/-- A poll that finds the latch at or above the level ends the trigger wait (R125). -/
theorem fg_of_poll_at_level {v : Byte} (ha : actionTaken m s = some .poll) (h : stepMove m s = .next t)
    (hl : s.latch = .holds v) (hv : s.trigLvl.toNat ≤ v.toNat) : t.fg = .idle := by
  have hexec : exec .trigPoll s = .next t := takeAction_of_actionTaken ha h
  obtain ⟨w, n, hread, hends, -⟩ := trigPollResult s (execTrigPoll_next.mp hexec).1
  obtain ⟨rfl, -⟩ := hread v hl
  cases (hends hv).symm.trans hexec
  rfl

/-! The step that reads a byte (R164). -/

/-- A command or parameter step: the steps that read a byte. -/
def readsByte (m : Move) (s : State) : Prop := actionTaken m s = some .cmd ∨ actionTaken m s = some .param

/-- The step from `s` to `t` has read the byte `b` and sent what that owes the host: as a command in `Idle` or as a
parameter (R230). -/
def Answered (b : Byte) (s t : State) : Prop :=
  (s.fg = .idle ∧ (b = 0x52#8 → t.txlog = s.txlog ++ t.settingsFrame) ∧
      (b = 0x53#8 → t.txlog = s.txlog ++ t.statusFrame)) ∨
    (s.fg = .waitParam ∧ (b.toNat < s.params.entries → t.dividx = b ∧ t.txlog = s.txlog ++ t.settingsFrame))

theorem State.toggleOp_rxq (s : State) : s.toggleOp.rxq = s.rxq := by
  cases he : s.enabled with
  | true => rw [State.toggleOp_of_enabled he]
  | false => rw [State.toggleOp_of_disabled he]

theorem command_answered {b : Byte} {q : List Byte} (hf : s.fg = .idle)
    (h : exec (decodeOpcode b) { s with rxq := q } = .next t) : t.rxq = q ∧ Answered b s t := by
  have hsent := whichInstructionSendsWhat _ _ _ h
  rcases decodeOpcode_cases b with ⟨rfl, hd⟩ | ⟨rfl, hd⟩ | ⟨rfl, hd⟩ | ⟨hb, hd⟩ <;> rw [hd] at h hsent
  · obtain ⟨-, rfl⟩ := execP_next.mp h
    exact ⟨rfl, .inl ⟨hf, nofun, nofun⟩⟩
  · obtain ⟨-, rfl⟩ := execS_next.mp h
    exact ⟨State.toggleOp_rxq _, .inl ⟨hf, nofun, fun _ => hsent⟩⟩
  · obtain ⟨-, rfl⟩ := execR_next.mp h
    exact ⟨rfl, .inl ⟨hf, fun _ => hsent, nofun⟩⟩
  · obtain ⟨-, rfl⟩ := (execIgnore_next (b := b)).mp h
    refine ⟨rfl, .inl ⟨hf, ?_, ?_⟩⟩ <;> rintro rfl <;> cases hb

theorem parameter_answered {b : Byte} {q : List Byte} (hf : s.fg = .waitParam)
    (h : exec (.param b) { s with rxq := q } = .next t) : t.rxq = q ∧ Answered b s t := by
  have hsent := whichInstructionSendsWhat _ _ _ h
  obtain ⟨-, ht⟩ := execParam_next.mp h
  by_cases hi : b.toNat < s.params.entries
  · simp only [if_pos hi] at ht hsent
    subst ht
    exact ⟨rfl, .inr ⟨hf, fun _ => ⟨rfl, hsent⟩⟩⟩
  · simp only [if_neg hi] at ht
    subst ht
    exact ⟨rfl, .inr ⟨hf, fun hlt => absurd hlt hi⟩⟩

theorem readsByte_answered {b : Byte} {q : List Byte} (hread : readsByte m s) (h : stepMove m s = .next t)
    (hq : s.rxq = b :: q) : t.rxq = q ∧ Answered b s t := by
  rcases hread with ha | ha
  · obtain ⟨prefer, -, hc⟩ := foreground_of_actionTaken ha
    have hexec := takeAction_of_actionTaken ha h
    rw [State.takeAction_cmd hq] at hexec
    exact command_answered (State.mem_enabledActions.mp (State.chooseAction_mem hc)).1 hexec
  · obtain ⟨prefer, -, hc⟩ := foreground_of_actionTaken ha
    have hexec := takeAction_of_actionTaken ha h
    rw [State.takeAction_param hq] at hexec
    exact parameter_answered (State.mem_enabledActions.mp (State.chooseAction_mem hc)).1 hexec

/-! Executions. -/

/-- Of the moments from `n` on at which `p` holds, there is a first. -/
theorem exists_first_from {p : Nat → Prop} {n : Nat} (h : ∃ m, n ≤ m ∧ p m) :
    ∃ m, n ≤ m ∧ p m ∧ ∀ k, n ≤ k → k < m → ¬p k := by
  classical
  obtain ⟨hle, hp⟩ := Nat.find_spec h
  exact ⟨Nat.find h, hle, hp, fun k hk hlt hpk => Nat.find_min h hlt ⟨hk, hpk⟩⟩

section
variable {moves : Nat → Move} {run : Nat → State} {n : Nat} (hexec : Execution moves run)
include hexec

/-- A trigger wait that never gives way to `Idle` lasts for good (R162). -/
theorem Execution.trigWait_lasts (hnever : ∀ m, n ≤ m → (run m).fg ≠ .idle) (hn : (run n).fg = .trigWait) {m : Nat}
    (hm : n ≤ m) : (run m).fg = .trigWait := by
  induction m, hm using Nat.le_induction with
  | base => exact hn
  | succ m hm ih =>
    have hnext := hnever (m + 1) (Nat.le_succ_of_le hm)
    obtain ⟨hreset, hmoved⟩ := sequencerTransitions _ _ _ (hexec m)
    cases hr : isReset (moves m) with
    | true => exact absurd (hreset hr) hnext
    | false =>
      rcases hmoved hr with hkept | ⟨-, ⟨hf, -⟩ | ⟨hf, -⟩ | ⟨hf, -⟩ | ⟨-, hidle, -⟩⟩
      · exact hkept.trans ih
      · cases hf.symm.trans ih
      · cases hf.symm.trans ih
      · cases hf.symm.trans ih
      · exact absurd hidle hnext

variable (hreset : ∀ m, n ≤ m → isReset (moves m) = false)
include hreset

/-- Until a byte is read the receive queue at most grows at its end. -/
theorem Execution.rxq_kept_until_read {m : Nat} (hm : n ≤ m)
    (hno : ∀ k, n ≤ k → k < m → ¬readsByte (moves k) (run k)) : (run n).rxq <+: (run m).rxq := by
  induction m, hm using Nat.le_induction with
  | base => exact List.prefix_rfl
  | succ m hm ih =>
    obtain ⟨hcmd, hparam⟩ := not_or.mp (hno m hm m.lt_succ_self)
    exact (ih fun k hk hlt => hno k hk (Nat.lt_succ_of_lt hlt)).trans
      (rxq_kept_without_read (hexec m) (hreset m hm) hcmd hparam)

/-- `Idle` lasts while no action is taken in it. -/
theorem Execution.idle_lasts (hnone : ∀ m, n ≤ m → (run m).fg = .idle → actionTaken (moves m) (run m) = none)
    (hn : (run n).fg = .idle) {m : Nat} (hm : n ≤ m) : (run m).fg = .idle := by
  induction m, hm using Nat.le_induction with
  | base => exact hn
  | succ m hm ih => exact (fg_kept_without_action (hexec m) (hreset m hm) (hnone m hm ih)).trans ih

variable (hfair : Fair moves run) (hidle : ∀ k, n ≤ k → ∃ m, k ≤ m ∧ (run m).fg = .idle)
include hfair hidle

/-- In a fair execution that returns to `Idle`, choices are made in `Idle` again and again: else `Idle` would last with an
action enabled and none taken. So an action that is enabled whenever `FG` is `Idle` is taken. -/
theorem Execution.takes_action_of_idle {a : FgAction}
    (hen : ∀ m, n ≤ m → (run m).fg = .idle → a ∈ (run m).enabledActions) :
    ∃ m, n ≤ m ∧ actionTaken (moves m) (run m) = some a := by
  refine hfair.notStarved a n fun k hk => ?_
  by_contra! hnone
  obtain ⟨j, hkj, hj⟩ := hidle k hk
  have hnj : n ≤ j := hk.trans hkj
  have hunacted : ∀ m, j ≤ m → (run m).fg = .idle → actionTaken (moves m) (run m) = none :=
    fun m hm hf => hnone m (hkj.trans hm) hf (hen m (hnj.trans hm) hf)
  have hlasts : ∀ m, j ≤ m → (run m).fg = .idle :=
    fun m hm => hexec.idle_lasts (fun i hi => hreset i (hnj.trans hi)) hunacted hj hm
  obtain ⟨m, hm, htaken⟩ := hfair.taken a j fun m hm => hen m (hnj.trans hm) (hlasts m hm)
  cases (hunacted m hm (hlasts m hm)).symm.trans htaken

/-- The first byte waiting is read at some moment, with the rest of the queue, and what has come since, behind it. -/
theorem Execution.reads_first {b : Byte} {q : List Byte} (hq : (run n).rxq = b :: q) :
    ∃ m later, n ≤ m ∧ (run m).rxq = b :: (q ++ later) ∧ (run (m + 1)).rxq = q ++ later ∧
      Answered b (run m) (run (m + 1)) := by
  have hread : ∃ m, n ≤ m ∧ readsByte (moves m) (run m) := by
    by_contra! hno
    have hwaits : ∀ m, n ≤ m → (run m).rxq ≠ [] := fun m hm hnil => by
      have hprefix := hexec.rxq_kept_until_read hreset hm fun k hk _ => hno k hk
      rw [hq, hnil] at hprefix
      cases List.prefix_nil.mp hprefix
    obtain ⟨m, hm, hcmd⟩ := hexec.takes_action_of_idle hreset hfair hidle (a := .cmd)
      fun m hm hf => State.mem_enabledActions.mpr ⟨hf, hwaits m hm⟩
    exact hno m hm (.inl hcmd)
  obtain ⟨m, hm, hreads, hno⟩ := exists_first_from hread
  obtain ⟨later, hlater⟩ := hexec.rxq_kept_until_read hreset hm hno
  rw [hq] at hlater
  exact ⟨m, later, hm, hlater.symm, readsByte_answered hreads (hexec m) hlater.symm⟩

/-- Every byte waiting is read in its turn: the bytes before it are read one by one. -/
theorem Execution.reads_queued {before : List Byte} {b : Byte} {behind : List Byte}
    (hq : (run n).rxq = before ++ b :: behind) :
    ∃ m later, n ≤ m ∧ (run m).rxq = b :: (behind ++ later) ∧ (run (m + 1)).rxq = behind ++ later ∧
      Answered b (run m) (run (m + 1)) := by
  induction before generalizing n behind with
  | nil => exact hexec.reads_first hreset hfair hidle hq
  | cons c before ih =>
    obtain ⟨m, later, hm, -, hrest, -⟩ := hexec.reads_first hreset hfair hidle hq
    have hnm : n ≤ m + 1 := Nat.le_succ_of_le hm
    obtain ⟨m', later', hm', hfront, hafter, hanswer⟩ :=
      ih (fun k hk => hreset k (hnm.trans hk)) (fun k hk => hidle k (hnm.trans hk)) (behind := behind ++ later)
        (hrest.trans (List.append_assoc before (b :: behind) later))
    rw [List.append_assoc] at hfront hafter
    exact ⟨m', later ++ later', hnm.trans hm', hfront, hafter, hanswer⟩

/-- A buffer that stays collectible until its emission is emitted. -/
theorem Execution.emits_collectible
    (hcol : ∀ m, n ≤ m → (∀ k, n ≤ k → k < m → actionTaken (moves k) (run k) ≠ some .emit) →
      (run m).collectible = true) :
    ∃ m, n ≤ m ∧ actionTaken (moves m) (run m) = some .emit ∧ (run m).collectible = true := by
  have hemit : ∃ m, n ≤ m ∧ actionTaken (moves m) (run m) = some .emit := by
    by_contra! hno
    obtain ⟨m, hm, hemit⟩ := hexec.takes_action_of_idle hreset hfair hidle (a := .emit) fun m hm hf =>
      State.mem_enabledActions.mpr (State.emitEnabled_iff.mp (by
        simp [State.emitEnabled, hf, hcol m hm fun k hk _ => hno k hk]))
    exact hno m hm hemit
  obtain ⟨m, hm, htaken, hno⟩ := exists_first_from hemit
  exact ⟨m, hm, htaken, hcol m hm hno⟩

end

end Sys2Proof.Machine
end

/-! ## The statements -/

section
open Sys2Proof Sys2Proof.Machine

/-- Settles O22: if the wait never ended, the poll would stay enabled (`Execution.trigWait_lasts`) and so be taken, and it
finds the latch at the level. -/
theorem fairTriggerWaitEnds : Obligations.FairTriggerWaitEnds := by
  intro moves run n hexec hfair hlatch hn
  by_contra! hnever
  have hwait : ∀ m, n ≤ m → (run m).fg = .trigWait := fun m hm => hexec.trigWait_lasts hnever hn hm
  obtain ⟨m, hm, hpoll⟩ := hfair.taken .poll n fun m hm => State.mem_enabledActions.mpr (hwait m hm)
  obtain ⟨v, hl, hv⟩ := hlatch m hm
  exact hnever (m + 1) (Nat.le_succ_of_le hm) (fg_of_poll_at_level hpoll (hexec m) hl hv)

/-- Settles O48: both actions are enabled, so which of them can be taken is what `FG_ORDER` admits; a toggle clears
`ENABLED`, without which no emission is enabled. -/
theorem toggleMeetsFullBuffer : Obligations.ToggleMeetsFullBuffer := by
  intro q d s hf he hc htm hd hq
  have hp : s.pausedWhileDisabled = false := State.pausedWhileDisabled_of_enabled he
  have hemit : .emit ∈ s.enabledActions := State.mem_enabledActions.mpr ⟨hf, he, hc⟩
  have hcmd : .cmd ∈ s.enabledActions := State.mem_enabledActions.mpr ⟨hf, by rw [hq]; nofun⟩
  obtain ⟨-, -, hany, hemitFirst, hcmdFirst, -⟩ := sequencerChoosesAmongEnabledActions s
  refine ⟨fun ho => ?frame, fun ho => ?toggle, fun ho prefer => ?onlyFrame, fun ho prefer => ?onlyToggle⟩
  case frame =>
    have hchoice : s.chooseAction .emit = some .emit := by
      cases horder : s.params.fgOrder with
      | any => exact hany horder .emit hemit
      | emitFirst => exact hemitFirst horder hemit .emit
      | cmdFirst => exact absurd horder ho
    rw [stepMove_of_choice hp hchoice]
    refine ⟨_, execEmit_next.mpr ⟨⟨hf, he, hc⟩, d, hd, if_neg (by simp [htm])⟩, ?_, rfl, rfl⟩
    exact State.txlog_tx s (dataBytes d)
  case toggle =>
    have hchoice : s.chooseAction .cmd = some .cmd := by
      cases horder : s.params.fgOrder with
      | any => exact hany horder .cmd hcmd
      | emitFirst => exact absurd horder ho
      | cmdFirst => exact hcmdFirst horder hcmd .cmd
    rw [stepMove_of_choice hp hchoice, State.takeAction_cmd hq]
    refine ⟨_, execS_next.mpr ⟨hf, State.toggleOp_of_enabled (by exact he)⟩, txOf_append _ _, rfl, fun hen => ?_⟩
    obtain ⟨-, henabled, -⟩ := State.mem_enabledActions.mp hen
    cases henabled
  case onlyFrame =>
    rw [stepMove_of_choice hp (hemitFirst ho hemit prefer), stepMove_of_choice hp (hemitFirst ho hemit .emit)]
  case onlyToggle =>
    rw [stepMove_of_choice hp (hcmdFirst ho hcmd prefer), stepMove_of_choice hp (hcmdFirst ho hcmd .cmd)]

/-- Settles O60: the bytes are read one after the other (`Execution.reads_queued`), each with its answer, and an emission
that stays enabled in `Idle` is taken (`Execution.emits_collectible`). -/
theorem fairRunsSendWhatIsOwed : Obligations.FairRunsSendWhatIsOwed := by
  intro moves run n hexec hfair hreset hidle
  refine ⟨fun before b behind hq => hexec.reads_queued hreset hfair hidle hq, fun hcol => ?frame⟩
  case frame =>
    obtain ⟨m, hm, htaken, hfull⟩ := hexec.emits_collectible hreset hfair hidle hcol
    obtain ⟨hf, d, hd, hsent⟩ := emission_of_actionTaken htaken (hexec m)
    exact ⟨m, d, hm, hf, hfull, hd, hsent⟩

/-- Settles O9. -/
theorem resetMoveFromAnyState : Obligations.ResetMoveFromAnyState := fun keepRx keepLocal s =>
  ⟨s.restart keepRx keepLocal, stepMove_reset keepRx keepLocal s, rfl, rfl, rfl, rfl, rfl, rfl, rfl, rfl, rfl, rfl,
    fun _ => rfl, rfl, rfl, rfl, rfl⟩

/-- Settles O30: the accepted parameter arms the converter and leaves `ENABLED`, `PAUSED` and `CURSOR`, and the handler does
not look at `PAUSED`. -/
theorem acceptedDividerResumesWhilePaused : Obligations.AcceptedDividerResumesWhilePaused :=
  fun _ v s hf hi he hp hc =>
    ⟨_, _, execParam_next.mpr ⟨hf, if_pos hi⟩, rfl, hp, rfl, execAdcDone_next.mpr (if_pos ⟨he, hc⟩),
      Memory.read_write_same s.buf s.cursor.toNat v, cursor_succ hc, hp⟩

/-- Settles O49. -/
theorem quiescentForegroundDoesNothing : Obligations.QuiescentForegroundDoesNothing := fun _ _ hs hp =>
  stepMove_foreground_of_none hp hs.enabledActions_eq_nil

end
